-- ==== Sys2Proof/Word.lean ====
section
/-! DEFINITION. The bit-vector types of the block: 64-bit words (R10, R18), bytes (R42, R43) and the 2-bit
pairs that a carrier byte carries (R11). -/

namespace Sys2Proof

/-- A 64-bit value: the transported value (R10), a register slot (R18), a command word (R59). -/
abbrev Word := BitVec 64

/-- One byte of the carrier or of the payload memory (R42, R43). -/
abbrev Byte := BitVec 8

/-- A pair, or 2-bit group: what one carrier byte carries in its bits 1:0 (R11 `PAIR_W`, R17). -/
abbrev Pair := BitVec 2

end Sys2Proof
end

