-- ==== Sys2Proof/Config.lean ====
section
/-! DEFINITION. What an implementation fixes (R9, R12, R13, R14 of 00_scope.md) and the free values of the
spec. The parameters are "a named parameter the model takes as an argument" (92_eei_decisions.md): State holds
them, so that a statement about every state is a statement about every implementation. The free values are
constants with no body: nothing can be proved about what they are. -/

namespace Sys2Proof

/-- R9: `IDX_W`, the width of the index arithmetic; its legal values are 32 and 64. -/
inductive IdxWidth where
  | w32
  | w64
deriving DecidableEq, Repr

/-- R9: the width as a number. -/
def IdxWidth.bits : IdxWidth → Nat
  | .w32 => 32
  | .w64 => 64

/-- R14: `IMPRINT_WIDE`, what IMPRINT does when SIZE is above 32. -/
inductive ImprintWide where
  /-- the pairs at window positions 32 and above are written as `0b00` -/
  | zero
  /-- the model refuses such a command -/
  | refuse
deriving DecidableEq, Repr

/-- The four parameters a model takes (00_scope.md section 4). Which values are legal is `Params.Legal`. -/
structure Params where
  /-- R9: `IDX_W` -/
  idxW : IdxWidth
  /-- R12: `CARRIER_SIZE`, in bytes -/
  carrierSize : Nat
  /-- R13: `PAYLOAD_SIZE`, in bytes -/
  payloadSize : Nat
  /-- R14: `IMPRINT_WIDE` -/
  imprintWide : ImprintWide
deriving DecidableEq, Repr

/-- The parameters of `State.reset`. `IDX_W = 64` and `IMPRINT_WIDE = zero` are the spec's defaults (R9, R14).
DESIGN CHOICE (unsafe): the spec gives no default for the two sizes; log entry 1. -/
def Params.default : Params :=
  { idxW := .w64, carrierSize := 65536, payloadSize := 16384, imprintWide := .zero }

/-- R129: a host read of an operand or result register while BUSY is 1 returns a draw, any 64-bit value.
A free value: log entry 2. -/
opaque Config.freeWord : Nat → Word

/-- R123, R129: a draw of one byte, any value. A free value: log entry 2. -/
opaque Config.freeByte : Nat → Byte

/-- R8, R36, R135: how many steps of the host come before the engine's step, "some finite time after" the CMD
write, when State names no delay. A free value, and always finite: log entry 3. -/
opaque Config.engineDelay : Nat → Nat

end Sys2Proof
end

