-- ==== Sys2Proof/Machine/State.lean ====
section
/-! DEFINITION. The state of one block with its host (10_state.md), as plain data. -/

namespace Sys2Proof.Machine

/-- R42, R43: the two byte memories. -/
inductive Space where
  | carrier
  | payload
deriving DecidableEq, Repr

/-- R103: the error kinds of STATUS.ERRCODE. A hardware status, never a stop of the model. -/
inductive ErrKind where
  /-- R104, code 1 -/
  | overflow
  /-- R105, code 2 -/
  | outOfBounds
  /-- R107, code 3 -/
  | capacityExceeded
  /-- R106, code 4 -/
  | sizeLimitExceeded
  /-- R108, code 5 -/
  | illegalCommand
deriving DecidableEq, Repr

/-- The model-level faults (R121): the machine stops. -/
inductive Fault where
  /-- R58, R121: a read of a memory byte that nothing has written since reset. Raised by every command that
  reads memory and by the host's byte read. Safe: the model stops where the hardware reads some value. -/
  | uninitRead (sp : Space) (address : Nat)
  /-- R42, R43: an address the memory does not have. Raised by the engine's byte accesses; no command reaches it
  when the parameters are legal (R46, R90, R93; log entry 11). Safe: the model stops. -/
  | outsideMemory (sp : Space) (address : Nat)
deriving DecidableEq, Repr

/-- The model's refusals (R121): the spec gives the step no meaning. -/
inductive Refusal where
  /-- An instruction whose meaning is not written. Raised by no arm of this model. Safe: the model stops. -/
  | notModelled (mnemonic : String)
  /-- R46, R121: any command executed with CLEN above CARRIER_SIZE. Safe: the model stops. -/
  | clenBeyondMemory
  /-- R14, R121: IMPRINT with SIZE above 32 under IMPRINT_WIDE = refuse. Safe: the model stops. -/
  | imprintWide
  /-- R131, R121: a host write of a register or memory byte while BUSY is 1. Safe: the model stops. -/
  | hostWriteWhileBusy
  /-- R50, R121: a host access of the wrong width or outside a space. Safe: the model stops. -/
  | hostAccessShape
deriving DecidableEq, Repr

/-- R68: the host's operations, one a line of its script, and the assertion of the reset input (R122).
An access names its own width in bytes, so that the shapes R50 refuses can be written down too. -/
inductive HostOp where
  /-- `wr`, `cmd`: a write of `bytes` bytes at byte offset `offset` of the register space -/
  | regWrite (offset bytes : Nat) (v : Word)
  /-- `rd`: a read of `bytes` bytes at byte offset `offset` of the register space -/
  | regRead (offset bytes : Nat)
  /-- `wb.c`, `wb.p`: a write to a memory; only one-byte accesses have a meaning -/
  | memWrite (sp : Space) (address bytes : Nat) (b : Byte)
  /-- `rb.c`, `rb.p`: a read of a memory -/
  | memRead (sp : Space) (address bytes : Nat)
  /-- `bnz.busy`: read STATUS and go to the line numbered `target` when BUSY is 1 -/
  | bnzBusy (target : Nat)
  /-- R122: the reset input is asserted here -/
  | reset
deriving DecidableEq, Repr

/-- What one host read returned: a whole register slot, or a memory byte (R50). -/
inductive ReadResult where
  | word (v : Word)
  | byte (b : Byte)
deriving DecidableEq, Repr

/-- A byte memory: the bytes written since reset with their addresses. A byte's written-since-reset mark (R38) is
set exactly when the byte is listed; an unlisted byte has no value (R41, R58). -/
abbrev Memory := List Host.Cell

/-- The canonical form of a memory: addresses strictly rising. (An unlisted byte reads as no value, so no entry
can equal what an unlisted byte reads as.) -/
abbrev Memory.wf (m : Memory) : Prop := m.Pairwise (fun x y => x.1 < y.1)

/-- The state of the block (R18 to R41), of its host (R3, R68) and of the model's own bookkeeping. -/
structure State where
  /-- R9, R12, R13, R14: the implementation's parameters; no step changes them -/
  cfg : Params
  /-- R25: VALUE -/
  value : Word
  /-- R26: OFFSET, IDX_W bits -/
  offset : Word
  /-- R27: SIZE, IDX_W bits -/
  size : Word
  /-- R28: CLEN, IDX_W bits -/
  clen : Word
  /-- R29: HDR, IDX_W bits -/
  hdr : Word
  /-- R30: PLEN -/
  plen : Word
  /-- R22: STATUS.DONE -/
  done : Bool
  /-- R23, R103: STATUS.ERRCODE; none is code 0 -/
  errcode : Option ErrKind
  /-- R36: the pending command word; STATUS.BUSY (R21) is 1 exactly when there is one -/
  pcw : Option Word
  /-- R42: the carrier memory with its written marks (R38) -/
  carrier : Memory
  /-- R43: the payload memory with its written marks (R38) -/
  payload : Memory
  /-- R122: the reset input; the reset that takes it releases it (log entry 13) -/
  resetIn : Bool
  /-- R39: the fault record -/
  faultRec : Option Fault
  /-- R39: the refusal mark, with its reason -/
  refusalRec : Option Refusal
  /-- R68: the host's program -/
  script : List HostOp
  /-- R68: the host's place in its program -/
  hpc : Nat
  /-- R68: what the host's reads returned, the latest first -/
  reads : List ReadResult
  /-- the delays of the commands to come, in host steps (log entry 3) -/
  delays : List Nat
  /-- how many host steps come before the engine's step for the pending command (log entry 3) -/
  wait : Nat
  /-- how many free values have been drawn (log entry 2) -/
  draws : Nat
deriving DecidableEq, Repr

/-- R40, R41: the block right after reset, for any parameters: every register 0, no command pending, no byte
written. The host has no program yet. -/
def State.resetWith (p : Params) : State :=
  { cfg := p, value := 0, offset := 0, size := 0, clen := 0, hdr := 0, plen := 0, done := false,
    errcode := none, pcw := none, carrier := [], payload := [], resetIn := false, faultRec := none,
    refusalRec := none, script := [], hpc := 0, reads := [], delays := [], wait := 0, draws := 0 }

/-- R40, R41, with the parameters of `Params.default`. -/
def State.reset : State := State.resetWith Params.default

end Sys2Proof.Machine
end

