-- ==== Sys2Proof/Machine/Operands.lean ====
section
/-! DEFINITION. The operand forms: index arithmetic and the window check (R71), pair selection and the lanes of a
carrier byte (R51, R72), the capacity check (R87), and the width of the index registers (R31). -/

namespace Sys2Proof.Machine

/-- R9: `IDX_MAX = 2^IDX_W - 1`, the largest index value. -/
def idxMax (p : Params) : Nat := 2 ^ p.idxW.bits - 1

/-- R31: what an index register stores of a written word, its bits IDX_W-1:0. -/
def truncIdx (w : IdxWidth) (v : Word) : Word :=
  match w with
  | .w32 => (v.setWidth 32).setWidth 64
  | .w64 => v

/-- R71 `WindowCheck(o, s, L)`: the error it raises, none where it returns. The sum is exact. -/
def windowCheck (p : Params) (o s L : Nat) : Option ErrKind :=
  if o + s > idxMax p then some .overflow
  else if o + s > L then some .outOfBounds
  else none

/-- R72 `pair(v, i) = v[2i+1:2i]`; the bits of a 64-bit value above bit 63 read as 0 (R15), so pairs at
`i >= 32` are `0b00`. -/
def pair (v : Word) (i : Nat) : Pair := v.extractLsb' (2 * i) 2

/-- R47, R74: bits 1:0 of a carrier byte, the pair it carries. -/
def carried (b : Byte) : Pair := b.extractLsb' 0 2

/-- R51: a carrier byte with bits 1:0 replaced and bits 7:2 kept. -/
def setCarried (b : Byte) (x : Pair) : Byte := b.extractLsb' 2 6 ++ x

/-- R74: a pair at its place in the assembled value, `x << 2i`. -/
def placed (x : Pair) (i : Nat) : Word := (x.setWidth 64) <<< (2 * i)

/-- R11: the largest window the decoder accepts. -/
def extractMax : Nat := 32

/-- R11: the length window's size. -/
def lenWin : Nat := 32

/-- R11: a per-byte window's size. -/
def byteWin : Nat := 4

/-- R84: the offset of the window of payload byte `k`. -/
def byteWindow (H k : Nat) : Nat := H + lenWin + byteWin * k

/-- R87: `available(H, L) = sat_sub(L, H + 32)`; subtraction of naturals saturates at 0. -/
def available (H L : Nat) : Nat := L - (H + lenWin)

/-- R87: `Capacity(n, H, L)`, exact. -/
def capacityOk (n H L : Nat) : Bool := byteWin * n ≤ available H L

end Sys2Proof.Machine
end

