-- ==== Sys2Proof/Machine/Ops.lean ====
section
/-! DEFINITION. The named operations: byte accesses to the memories (R16, R48, R58), the end of a command with or
without an error (R111, R112), the draws (R123, R129), the fault record and the refusal mark (R39). -/

namespace Sys2Proof.Machine

/-! ### Memories -/

/-- The byte at an address, none where nothing was written since reset (R38). -/
def memGet : Memory → Nat → Option Byte
  | [], _ => none
  | (c, x) :: m, a => if c = a then some x else memGet m a

/-- The memory with one byte written, and so marked (R58). -/
def memSet : Memory → Nat → Byte → Memory
  | [], a, b => [(a, b)]
  | (c, x) :: m, a, b =>
    if a < c then (a, b) :: (c, x) :: m
    else if a = c then (a, b) :: m
    else (c, x) :: memSet m a b

/-- R42, R43: the number of bytes of a memory. -/
def spaceSize (p : Params) : Space → Nat
  | .carrier => p.carrierSize
  | .payload => p.payloadSize

/-- A memory of the state by its space. -/
def memoryOf (s : State) : Space → Memory
  | .carrier => s.carrier
  | .payload => s.payload

/-- The state with one of its memories replaced. -/
def setMemory (s : State) : Space → Memory → State
  | .carrier, m => { s with carrier := m }
  | .payload, m => { s with payload := m }

/-- R16 `MemRead_C(a, 1)`, `MemRead_P(a, 1)`: a byte the memory has, written since reset (R58). -/
def readByte (p : Params) (sp : Space) (m : Memory) (a : Nat) : Except Fault Byte :=
  if a < spaceSize p sp then
    match memGet m a with
    | some b => .ok b
    | none => .error (.uninitRead sp a)
  else .error (.outsideMemory sp a)

/-- R16 `MemWrite_C(a, 1, b)`, `MemWrite_P(a, 1, b)`: the byte is written and its mark set (R58). -/
def writeByte (p : Params) (sp : Space) (m : Memory) (a : Nat) (b : Byte) : Except Fault Memory :=
  if a < spaceSize p sp then .ok (memSet m a b) else .error (.outsideMemory sp a)

/-! ### The end of a command -/

/-- R111, R112: ERRCODE is written, DONE set, BUSY cleared and the pending word discarded; no other register and
no memory byte is written here. -/
def finish (e : Option ErrKind) (s : State) : State :=
  { s with errcode := e, done := true, pcw := none, wait := 0 }

/-- R111: the effect of `raise E()`. An error is a status code, not a trap: nothing is saved and control goes
nowhere (R102), and there is no return from it (R114). -/
def raiseError (e : ErrKind) (s : State) : State := finish (some e) s

/-- R112: the effect of `complete()`. -/
def complete (s : State) : State := finish none s

/-- How a window operation stops short: with an error of the hardware (R103) or a fault of the model (R121). -/
inductive Stop where
  | raise (e : ErrKind)
  | fault (f : Fault)
deriving DecidableEq, Repr

/-! ### Draws -/

/-- R123, R129: `n` drawn bytes at the addresses from `start` up, the first from the draw numbered `d`. -/
def drawBytes (d start n : Nat) : Memory :=
  (List.range n).map (fun i => (start + i, Config.freeByte (d + i)))

/-! ### The fault record and the refusal mark -/

/-- R39, R121: the state after an outcome: the next state, or the same state with the fault or the refusal
recorded. Nothing ever clears either. -/
def recordStop (s : State) (o : Host.Outcome State Fault Refusal) : State :=
  match o with
  | .next t => t
  | .fault f => { s with faultRec := some f }
  | .refused r => { s with refusalRec := some r }

end Sys2Proof.Machine
end

