-- ==== Sys2Proof/Machine/Codec.lean ====
section
/-! DEFINITION. The window primitives and the commands IMPRINT and EXTRACT (40_codec.md). -/

namespace Sys2Proof.Machine

/-! ### ImprintWindow, ExtractWindow -/

/-- R73: the loop of `ImprintWindow`, `n` bytes left from window position `i`: each byte is read and written back
with its pair replaced. -/
def imprintBytes (p : Params) (v : Word) (o : Nat) : Nat → Nat → Memory → Except Fault Memory
  | 0, _, m => .ok m
  | n + 1, i, m =>
    match readByte p .carrier m (o + i) with
    | .error f => .error f
    | .ok b =>
      match writeByte p .carrier m (o + i) (setCarried b (pair v i)) with
      | .error f => .error f
      | .ok m' => imprintBytes p v o n (i + 1) m'

/-- R73 `ImprintWindow(v, o, s, L)`. -/
def imprintWindow (p : Params) (v : Word) (o s L : Nat) (m : Memory) : Except Stop Memory :=
  match windowCheck p o s L with
  | some e => .error (.raise e)
  | none =>
    match imprintBytes p v o s 0 m with
    | .error f => .error (.fault f)
    | .ok m' => .ok m'

/-- R74: the loop of `ExtractWindow`, `n` bytes left from window position `i`, `r` assembled so far. -/
def extractBytes (p : Params) (m : Memory) (o : Nat) : Nat → Nat → Word → Except Fault Word
  | 0, _, r => .ok r
  | n + 1, i, r =>
    match readByte p .carrier m (o + i) with
    | .error f => .error f
    | .ok b => extractBytes p m o n (i + 1) (r ||| placed (carried b) i)

/-- R74 `ExtractWindow(o, s, L)`: the window check, then the size ceiling, then the bytes. -/
def extractWindow (p : Params) (o s L : Nat) (m : Memory) : Except Stop Word :=
  match windowCheck p o s L with
  | some e => .error (.raise e)
  | none =>
    if s > extractMax then .error (.raise .sizeLimitExceeded)
    else
      match extractBytes p m o s 0 0 with
      | .error f => .error (.fault f)
      | .ok r => .ok r

/-! ### The commands -/

/-- R73: IMPRINT. -/
def execImprint (s : State) : Host.Outcome State Fault Refusal :=
  if s.clen.toNat > s.cfg.carrierSize then .refused .clenBeyondMemory
  else if s.size.toNat > 32 ∧ s.cfg.imprintWide = .refuse then .refused .imprintWide
  else
    match imprintWindow s.cfg s.value s.offset.toNat s.size.toNat s.clen.toNat s.carrier with
    | .error (.raise e) => .next (raiseError e s)
    | .error (.fault f) => .fault f
    | .ok c => .next (complete { s with carrier := c })

/-- R74: EXTRACT. VALUE is written on success only (R25, D17). -/
def execExtract (s : State) : Host.Outcome State Fault Refusal :=
  if s.clen.toNat > s.cfg.carrierSize then .refused .clenBeyondMemory
  else
    match extractWindow s.cfg s.offset.toNat s.size.toNat s.clen.toNat s.carrier with
    | .error (.raise e) => .next (raiseError e s)
    | .error (.fault f) => .fault f
    | .ok v => .next (complete { s with value := v })

end Sys2Proof.Machine
end

