-- ==== Sys2Proof/Machine/Framer.lean ====
section
/-! DEFINITION. The payload framer and the commands HIDE and RECOVER (41_framer.md). -/

namespace Sys2Proof.Machine

/-- R89: HIDE's loop, `n` payload bytes left from number `k`: each is read and imprinted in its window. It ends
with the carrier as far as it was written and the error that stopped it, if one did (R111); with legal parameters
none does (R91). -/
def hideLoop (p : Params) (H L : Nat) (pl : Memory) :
    Nat → Nat → Memory → Except Fault (Memory × Option ErrKind)
  | 0, _, m => .ok (m, none)
  | n + 1, k, m =>
    match readByte p .payload pl k with
    | .error f => .error f
    | .ok b =>
      match imprintWindow p (b.setWidth 64) (byteWindow H k) byteWin L m with
      | .error (.raise e) => .ok (m, some e)
      | .error (.fault f) => .error f
      | .ok m' => hideLoop p H L pl n (k + 1) m'

/-- R89: HIDE. The capacity check comes before any access (R88). -/
def execHide (s : State) : Host.Outcome State Fault Refusal :=
  if s.clen.toNat > s.cfg.carrierSize then .refused .clenBeyondMemory
  else if capacityOk s.plen.toNat s.hdr.toNat s.clen.toNat = false then
    .next (raiseError .capacityExceeded s)
  else
    match imprintWindow s.cfg s.plen s.hdr.toNat lenWin s.clen.toNat s.carrier with
    | .error (.raise e) => .next (raiseError e s)
    | .error (.fault f) => .fault f
    | .ok c =>
      match hideLoop s.cfg s.hdr.toNat s.clen.toNat s.payload s.plen.toNat 0 c with
      | .error f => .fault f
      | .ok (c', some e) => .next (raiseError e { s with carrier := c' })
      | .ok (c', none) => .next (complete { s with carrier := c' })

/-- R92: RECOVER's loop, `n` windows left from number `k`. It ends with the payload memory as far as it was
written and the error that stopped it, if one did: the bytes written before a failing window stay (R94). -/
def recoverLoop (p : Params) (H L : Nat) (c : Memory) :
    Nat → Nat → Memory → Except Fault (Memory × Option ErrKind)
  | 0, _, pl => .ok (pl, none)
  | n + 1, k, pl =>
    match extractWindow p (byteWindow H k) byteWin L c with
    | .error (.raise e) => .ok (pl, some e)
    | .error (.fault f) => .error f
    | .ok b =>
      match writeByte p .payload pl k (b.setWidth 8) with
      | .error f => .error f
      | .ok pl' => recoverLoop p H L c n (k + 1) pl'

/-- R92: RECOVER. PLEN is written on success only (R30, D17); there is no capacity check (R95). -/
def execRecover (s : State) : Host.Outcome State Fault Refusal :=
  if s.clen.toNat > s.cfg.carrierSize then .refused .clenBeyondMemory
  else
    match extractWindow s.cfg s.hdr.toNat lenWin s.clen.toNat s.carrier with
    | .error (.raise e) => .next (raiseError e s)
    | .error (.fault f) => .fault f
    | .ok m =>
      match recoverLoop s.cfg s.hdr.toNat s.clen.toNat s.carrier m.toNat 0 s.payload with
      | .error f => .fault f
      | .ok (pl, some e) => .next (raiseError e { s with payload := pl })
      | .ok (pl, none) => .next (complete { s with payload := pl, plen := m })

end Sys2Proof.Machine
end

