-- ==== Sys2Proof/Syntax.lean ====
section
/-! DEFINITION. The command set: one constructor per row of the opcode table (R62). A command word carries no
operand field and no immediate (R64), so no constructor has an argument. -/

namespace Sys2Proof

/-- The four commands of R62. -/
inductive Instr where
  /-- R73: write a value into a window, two bits per carrier byte -/
  | imprint
  /-- R74: read a value out of a window, two bits per carrier byte -/
  | extract
  /-- R89: the framer's encode: capacity check, length window, per-byte windows -/
  | hide
  /-- R92: the framer's decode: length window, then that many per-byte windows -/
  | recover
deriving DecidableEq, Repr

end Sys2Proof
end

