-- ==== Sys2Proof/Machine/Dispatch.lean ====
section
/-! DEFINITION. The engine's dispatch: one arm per command. -/

namespace Sys2Proof.Machine

def exec (i : Instr) (s : State) : Host.Outcome State Fault Refusal :=
  match i with
  | .imprint => Sys2Proof.Machine.execImprint s
  | .extract => Sys2Proof.Machine.execExtract s
  | .hide => Sys2Proof.Machine.execHide s
  | .recover => Sys2Proof.Machine.execRecover s

end Sys2Proof.Machine
end

