-- ==== Sys2Proof/Decode.lean ====
section
/-! DEFINITION. Command decoding, total on every 64-bit word (R66), and the encoder. -/

namespace Sys2Proof

/-- R66: why a command word is ILLEGAL. -/
inductive IllegalWord where
  /-- R61: a bit of RSVD (63:4) is set, whatever OP holds -/
  | reservedBitsSet
  /-- R63: OP is 0x0 or 0x5 to 0xF -/
  | reservedOpcode (op : BitVec 4)
deriving DecidableEq, Repr

/-- R60: OP, bits 3:0. -/
def opField (w : Word) : BitVec 4 := w.extractLsb' 0 4

/-- R61: RSVD, bits 63:4. -/
def rsvdField (w : Word) : BitVec 60 := w.extractLsb' 4 60

/-- R62: the opcodes; R63: every other value is reserved. -/
def decodeOp (op : BitVec 4) : Except IllegalWord Instr :=
  if op = 0x1#4 then .ok .imprint
  else if op = 0x2#4 then .ok .extract
  else if op = 0x3#4 then .ok .hide
  else if op = 0x4#4 then .ok .recover
  else .error (.reservedOpcode op)

/-- R66: the decoding of a pending command word. -/
def decode (w : Word) : Except IllegalWord Instr :=
  if rsvdField w ≠ 0#60 then .error .reservedBitsSet else decodeOp (opField w)

/-- R62: the opcode of a command. -/
def opcodeOf : Instr → BitVec 4
  | .imprint => 0x1#4
  | .extract => 0x2#4
  | .hide => 0x3#4
  | .recover => 0x4#4

/-- R59: the command word, RSVD (0) in the high bits and OP in the low ones. -/
def encode (i : Instr) : Word := 0#60 ++ opcodeOf i

/-- The command that the opcode table's `nbits` bits `w` stand for; bits at and above `nbits` are 0. Every
command is one 64-bit word (R59, R65), so a longer bit string is none. -/
def decodeTableWord (nbits w : Nat) : Option Instr :=
  if nbits ≤ 64 then (decode (BitVec.ofNat 64 (w % 2 ^ nbits))).toOption else none

end Sys2Proof
end

