-- ==== Sys2Proof/Machine/Flags.lean ====
section
/-! DEFINITION. STATUS: its fields and the word the host reads (R20 to R24, R103). The block has no other flag (R35). -/

namespace Sys2Proof.Machine

/-- R103: the number of an error kind. -/
def errCode : ErrKind → BitVec 4
  | .overflow => 1#4
  | .outOfBounds => 2#4
  | .capacityExceeded => 3#4
  | .sizeLimitExceeded => 4#4
  | .illegalCommand => 5#4

/-- R23, R103: STATUS.ERRCODE, 0 for no error. -/
def errField (s : State) : BitVec 4 :=
  match s.errcode with
  | none => 0#4
  | some e => errCode e

/-- R21, R36: STATUS.BUSY is 1 exactly while a command is pending (log entry 12). -/
def busy (s : State) : Bool := s.pcw.isSome

/-- R20, R24: the STATUS word: ERRCODE in bits 11:8, DONE in bit 1, BUSY in bit 0, every other bit 0. -/
def statusWord (s : State) : Word :=
  0#52 ++ errField s ++ 0#6 ++ BitVec.ofBool s.done ++ BitVec.ofBool (busy s)

end Sys2Proof.Machine
end

