-- ==== Sys2Proof/Machine/HostPort.lean ====
section
/-! DEFINITION. The host's side: the register space, the accesses of the host and their protocol with BUSY, and
the host script (10_state.md R18 to R32, 20_memory.md R44 and R50, 30_encoding.md R68 to R70,
70_reset_and_hazards.md R128 to R131). -/

namespace Sys2Proof.Machine

/-! ### The register space -/

/-- R18, R32, R44: the slots of the register space. -/
inductive Slot where
  | cmd
  | status
  | value
  | offset
  | size
  | clen
  | hdr
  | plen
  | reserved
deriving DecidableEq, Repr

/-- R18: the slot with a number; slots 8 to 15 are reserved. -/
def slotNumbered (k : Nat) : Slot :=
  match k with
  | 0 => .cmd
  | 1 => .status
  | 2 => .value
  | 3 => .offset
  | 4 => .size
  | 5 => .clen
  | 6 => .hdr
  | 7 => .plen
  | _ => .reserved

/-- R50: the slot an access names, none where the access is not one whole slot of the 16. -/
def slotOf (offset bytes : Nat) : Option Slot :=
  if bytes = 8 ∧ offset % 8 = 0 ∧ offset < 128 then some (slotNumbered (offset / 8)) else none

/-- R18: the byte offset of a register by its slot; 0x40 for a reserved slot. -/
def slotOffset : Slot → Nat
  | .cmd => 0x00
  | .status => 0x08
  | .value => 0x10
  | .offset => 0x18
  | .size => 0x20
  | .clen => 0x28
  | .hdr => 0x30
  | .plen => 0x38
  | .reserved => 0x40

/-- R18, R20, R31, R32: what the host reads from a slot while no command is pending. CMD and the reserved slots
read as 0. -/
def readSlot (s : State) : Slot → Word
  | .cmd => 0
  | .status => statusWord s
  | .value => s.value
  | .offset => s.offset
  | .size => s.size
  | .clen => s.clen
  | .hdr => s.hdr
  | .plen => s.plen
  | .reserved => 0

/-- R19, R36: an accepted CMD write latches the word, and BUSY is 1 from now on. How many steps of the host come
before the engine's step is the next delay of the state, and a free value where the state names none (log entry 3). -/
def acceptCommand (w : Word) (s : State) : State :=
  match s.delays with
  | d :: ds => { s with pcw := some w, wait := d, delays := ds }
  | [] => { s with pcw := some w, wait := Config.engineDelay s.draws, draws := s.draws + 1 }

/-- R19 to R32: what a write of a slot does while no command is pending. STATUS and the reserved slots ignore it;
the index registers keep the low IDX_W bits (R31). -/
def writeSlot (s : State) (v : Word) : Slot → State
  | .cmd => acceptCommand v s
  | .status => s
  | .value => { s with value := v }
  | .offset => { s with offset := truncIdx s.cfg.idxW v }
  | .size => { s with size := truncIdx s.cfg.idxW v }
  | .clen => { s with clen := truncIdx s.cfg.idxW v }
  | .hdr => { s with hdr := truncIdx s.cfg.idxW v }
  | .plen => { s with plen := v }
  | .reserved => s

/-! ### The host's place and what it has read -/

/-- The host goes on to the line `k`; one host step of the pending command's delay is over. -/
def goTo (k : Nat) (s : State) : State := { s with hpc := k, wait := s.wait - 1 }

/-- The host goes on to the next line. -/
def advance (s : State) : State := goTo (s.hpc + 1) s

/-- The host has read a value. -/
def record (r : ReadResult) (s : State) : State := { s with reads := r :: s.reads }

/-- R129: a draw of a whole slot. -/
def recordFreeWord (s : State) : State :=
  { record (.word (Config.freeWord s.draws)) s with draws := s.draws + 1 }

/-- R129: a draw of a byte. -/
def recordFreeByte (s : State) : State :=
  { record (.byte (Config.freeByte s.draws)) s with draws := s.draws + 1 }

/-! ### The accesses -/

/-- R19, R31, R32, R50, R131: a host write of the register space. A reserved slot ignores the write in every state
(R32; log entry 7); a wrong shape is refused before a write while BUSY is 1 (log entry 10). -/
def hostRegWrite (offset bytes : Nat) (v : Word) (s : State) : Host.Outcome State Fault Refusal :=
  match slotOf offset bytes with
  | none => .refused .hostAccessShape
  | some .reserved => .next (advance s)
  | some r => if busy s then .refused .hostWriteWhileBusy else .next (writeSlot (advance s) v r)

/-- R129: a host read of a slot while a command is pending: STATUS as it is, CMD and the reserved slots 0, any
other register a draw. -/
def readSlotBusy (s : State) : Slot → State
  | .cmd => record (.word 0) s
  | .status => record (.word (statusWord s)) s
  | .reserved => record (.word 0) s
  | .value => recordFreeWord s
  | .offset => recordFreeWord s
  | .size => recordFreeWord s
  | .clen => recordFreeWord s
  | .hdr => recordFreeWord s
  | .plen => recordFreeWord s

/-- R18, R50, R129: a host read of the register space. -/
def hostRegRead (offset bytes : Nat) (s : State) : Host.Outcome State Fault Refusal :=
  match slotOf offset bytes with
  | none => .refused .hostAccessShape
  | some r =>
    if busy s then .next (advance (readSlotBusy s r))
    else .next (advance (record (.word (readSlot s r)) s))

/-- R50: a memory access has a meaning when it is one byte, at an address below the memory's size. -/
def byteAccessOk (p : Params) (sp : Space) (a bytes : Nat) : Bool :=
  bytes = 1 ∧ a < spaceSize p sp

/-- R50, R58, R131: a host write of a memory byte; it sets the byte's mark. A wrong shape is refused first
(log entry 10). -/
def hostMemWrite (sp : Space) (a bytes : Nat) (b : Byte) (s : State) :
    Host.Outcome State Fault Refusal :=
  if byteAccessOk s.cfg sp a bytes = false then .refused .hostAccessShape
  else if busy s then .refused .hostWriteWhileBusy
  else .next (advance (setMemory s sp (memSet (memoryOf s sp) a b)))

/-- R50, R58, R129: a host read of a memory byte: a draw while a command is pending (log entry 8), a fault for a
byte that nothing has written. -/
def hostMemRead (sp : Space) (a bytes : Nat) (s : State) : Host.Outcome State Fault Refusal :=
  if byteAccessOk s.cfg sp a bytes = false then .refused .hostAccessShape
  else if busy s then .next (advance (recordFreeByte s))
  else
    match readByte s.cfg sp (memoryOf s sp) a with
    | .error f => .fault f
    | .ok b => .next (advance (record (.byte b) s))

/-- R68: `bnz.busy`: the host reads STATUS and goes to the line when BUSY is 1. -/
def hostBranchBusy (target : Nat) (s : State) : Host.Outcome State Fault Refusal :=
  if busy s then .next (goTo target s) else .next (advance s)

/-- R122: the reset input is asserted; the reset itself is the next step (log entries 6 and 13). -/
def assertReset (s : State) : State := { advance s with resetIn := true }

/-- R68: one operation of the host. -/
def execHostOp (op : HostOp) (s : State) : Host.Outcome State Fault Refusal :=
  match op with
  | .regWrite offset bytes v => hostRegWrite offset bytes v s
  | .regRead offset bytes => hostRegRead offset bytes s
  | .memWrite sp a bytes b => hostMemWrite sp a bytes b s
  | .memRead sp a bytes => hostMemRead sp a bytes s
  | .bnzBusy target => hostBranchBusy target s
  | .reset => .next (assertReset s)

/-- R68: the host's next operation, none at the end of its script. -/
def nextHostOp (s : State) : Option HostOp := s.script[s.hpc]?

/-! ### The host script and its pseudo-instructions (R68, R69)

A label is the number of a line. A pseudo-instruction that polls takes the number of its own first line, `k`. -/

/-- R68 `wr REG, v`. -/
def wr (r : Slot) (v : Word) : List HostOp := [.regWrite (slotOffset r) 8 v]

/-- R68 `rd REG`. -/
def rd (r : Slot) : List HostOp := [.regRead (slotOffset r) 8]

/-- R68 `wb.c a, b`, `wb.p a, b`. -/
def wb (sp : Space) (a : Nat) (b : Byte) : List HostOp := [.memWrite sp a 1 b]

/-- R68 `rb.c a`, `rb.p a`. -/
def rb (sp : Space) (a : Nat) : List HostOp := [.memRead sp a 1]

/-- R68 `cmd M`: the command word of M is written to CMD. -/
def cmd (i : Instr) : List HostOp := wr .cmd (encode i)

/-- R68 `fill.c a, n, b`: the bytes from `a` up, in ascending order. -/
def fillC (a n : Nat) (b : Byte) : List HostOp :=
  (List.range n).map (fun i => .memWrite .carrier (a + i) 1 b)

/-- R69 `wait`: `w: bnz.busy w`. -/
def waitAt (k : Nat) : List HostOp := [.bnzBusy k]

/-- R69 `imprint v, o, s`. -/
def imprintAt (k : Nat) (v o s : Word) : List HostOp :=
  wr .value v ++ wr .offset o ++ wr .size s ++ cmd .imprint ++ waitAt (k + 4)

/-- R69 `extract o, s`. -/
def extractAt (k : Nat) (o s : Word) : List HostOp :=
  wr .offset o ++ wr .size s ++ cmd .extract ++ waitAt (k + 3) ++ rd .value

/-- R69 `hide n`. -/
def hideAt (k : Nat) (n : Word) : List HostOp := wr .plen n ++ cmd .hide ++ waitAt (k + 2)

/-- R69 `recover`. -/
def recoverAt (k : Nat) : List HostOp := cmd .recover ++ waitAt (k + 1) ++ rd .plen

end Sys2Proof.Machine
end

