-- ==== Sys2Proof/Machine/Reset.lean ====
section
/-! DEFINITION. The reset input and the abort of a pending command (70_reset_and_hazards.md, R122 to R124). -/

namespace Sys2Proof.Machine

/-- R123: how many payload bytes a RECOVER could have written: those whose window fits, and no more than the
length window says. Where the length window cannot be read because a byte of it was never written, the length is
not known and every window that fits counts (log entry 9). -/
def recoverReach (s : State) : Nat :=
  match extractBytes s.cfg s.carrier s.hdr.toNat lenWin 0 0 with
  | .ok m => min m.toNat (available s.hdr.toNat s.clen.toNat / byteWin)
  | .error _ => available s.hdr.toNat s.clen.toNat / byteWin

/-- R123: the bytes a command could have written, as a memory, a first address and a count. A command that its own
rule refuses or that raises before its first write could have written none (log entry 9). -/
def writeWindow (i : Instr) (s : State) : Space × Nat × Nat :=
  match i with
  | .imprint =>
    if s.clen.toNat > s.cfg.carrierSize then (.carrier, 0, 0)
    else if s.size.toNat > 32 ∧ s.cfg.imprintWide = .refuse then (.carrier, 0, 0)
    else if windowCheck s.cfg s.offset.toNat s.size.toNat s.clen.toNat ≠ none then (.carrier, 0, 0)
    else (.carrier, s.offset.toNat, s.size.toNat)
  | .extract => (.carrier, 0, 0)
  | .hide =>
    if s.clen.toNat > s.cfg.carrierSize then (.carrier, 0, 0)
    else if capacityOk s.plen.toNat s.hdr.toNat s.clen.toNat = false then (.carrier, 0, 0)
    else if windowCheck s.cfg s.hdr.toNat lenWin s.clen.toNat ≠ none then (.carrier, 0, 0)
    else (.carrier, s.hdr.toNat, lenWin + byteWin * s.plen.toNat)
  | .recover =>
    if s.clen.toNat > s.cfg.carrierSize then (.payload, 0, 0)
    else if windowCheck s.cfg s.hdr.toNat lenWin s.clen.toNat ≠ none then (.payload, 0, 0)
    else (.payload, 0, recoverReach s)

/-- R123: the bytes the pending command could have written; none where no command is pending or the pending word
is ILLEGAL (R113). -/
def abortWindow (s : State) : Space × Nat × Nat :=
  match s.pcw with
  | none => (.carrier, 0, 0)
  | some w =>
    match decode w with
    | .error _ => (.carrier, 0, 0)
    | .ok i => writeWindow i s

/-- R40, R122: every register and field at its reset value, the pending command discarded, every mark clear. The
parameters, the host, the fault record and the refusal mark are not the block's to reset (R39, R122).
DESIGN CHOICE (unsafe): the reset input is released here, after the one step that takes it; the spec does not say how
long it stays asserted (log entry 13). -/
def clearBlock (s : State) : State :=
  { s with value := 0, offset := 0, size := 0, clen := 0, hdr := 0, plen := 0, done := false,
           errcode := none, pcw := none, carrier := [], payload := [], resetIn := false, wait := 0 }

/-- R122, R123: reset. The bytes an aborted command could have written hold draws, with their marks set. -/
def applyReset (s : State) : State :=
  let t := clearBlock s
  match abortWindow s with
  | (sp, start, n) => { setMemory t sp (drawBytes s.draws start n) with draws := s.draws + n }

end Sys2Proof.Machine
end

