-- ==== Sys2Proof/Machine/Engine.lean ====
section
/-! DEFINITION. The engine's step on the pending command word (R36, R66, R113) and who moves next (R3, R117,
R135). -/

namespace Sys2Proof.Machine

/-- R36, R66: the pending word is decoded and its command runs to completion; an ILLEGAL word reads nothing and
raises IllegalCommand (R113). -/
def execWord (w : Word) (s : State) : Host.Outcome State Fault Refusal :=
  match decode w with
  | .ok i => exec i s
  | .error _ => .next (raiseError .illegalCommand s)

/-- Who moves in a step. -/
inductive Actor where
  /-- the reset input is asserted (R122) -/
  | reset
  /-- the engine executes the pending word (R36) -/
  | engine (w : Word)
  /-- the host does its next operation (R68) -/
  | host (op : HostOp)
  /-- no command is pending and the host has nothing to do (R124) -/
  | idle
deriving DecidableEq, Repr

/-- Who moves next. A reset wins (R117). A pending command waits for its delay of host steps, which is finite, and
no longer than the host has operations left, so it is always executed (R135). -/
def nextActor (s : State) : Actor :=
  if s.resetIn then .reset
  else
    match s.pcw, nextHostOp s with
    | some w, none => .engine w
    | some w, some op => if s.wait = 0 then .engine w else .host op
    | none, some op => .host op
    | none, none => .idle

/-- What the one who moves does. An idle block stays as it is (R124). -/
def act (a : Actor) (s : State) : Host.Outcome State Fault Refusal :=
  match a with
  | .reset => .next (applyReset s)
  | .engine w => execWord w s
  | .host op => execHostOp op s
  | .idle => .next s

end Sys2Proof.Machine
end

