-- ==== Sys2Proof/Machine/Step.lean ====
section
/-! DEFINITION. One step of the block and its host, and the placing of a command for the next step. -/

namespace Sys2Proof.Machine

/-- One step: a reset, one whole command of the engine (R36, R53), or one operation of the host (R68). -/
def step (s : State) : Host.Outcome State Fault Refusal := act (nextActor s) s

/-- The block fetches nothing (R34, R57): a command comes to run because the host wrote its word to CMD (R19).
This is the state after that accepted write, with the engine to move next: the word is pending, its delay is over
and no reset is asserted (log entry 4). -/
def State.withFetchWord (s : State) (nbits w : Nat) : State :=
  { s with pcw := some (BitVec.ofNat 64 (w % 2 ^ nbits)), wait := 0, resetIn := false }

end Sys2Proof.Machine
end

