-- ==== Sys2Proof/WellFormed.lean ====
section
/-! DEFINITION. What is well formed: the parameters an implementation may take (R9, R12, R13) and the command
words that name a command (R59 to R63). A command itself has no operand (R64), so every `Instr` is well formed. -/

namespace Sys2Proof

/-- R12, R13: the bounds on the parameters, `CARRIER_SIZE <= IDX_MAX - 4` with `IDX_MAX = 2^IDX_W - 1`, and
`PAYLOAD_SIZE >= floor(CARRIER_SIZE / 4)`. -/
abbrev Params.Legal (p : Params) : Prop :=
  p.carrierSize + 4 ≤ 2 ^ p.idxW.bits - 1 ∧ p.carrierSize / 4 ≤ p.payloadSize

/-- R61: RSVD, bits 63:4 of a command word, must be 0. -/
abbrev reservedClear (w : Word) : Prop := w.extractLsb' 4 60 = 0#60

/-- R62, R63: the OP values 0x1 to 0x4 name a command; 0x0 and 0x5 to 0xF are reserved. -/
abbrev opcodeKnown (w : Word) : Prop :=
  1 ≤ (w.extractLsb' 0 4).toNat ∧ (w.extractLsb' 0 4).toNat ≤ 4

/-- A command word that names a command (R66). -/
abbrev CommandWordOk (w : Word) : Prop := reservedClear w ∧ opcodeKnown w

/-- R64: a command carries no operand field and no immediate, so nothing in one can be ill formed. -/
def Instr.wellFormed : Instr → Bool
  | .imprint => true
  | .extract => true
  | .hide => true
  | .recover => true

end Sys2Proof
end

