-- ==== Sys2Proof/Safety.lean ====
section
/-! DEFINITION. The terms the statements use: the invariant, when a command's memory is ready, the run of a host
program with its fault record and refusal mark, and its good end (R39, R136). -/

namespace Sys2Proof.Machine

/-- R9, R31: an index register holds an IDX_W-bit number. -/
abbrev idxFits (p : Params) (v : Word) : Prop := v.toNat ≤ idxMax p

/-- A memory in canonical form that lists only addresses it has (R42, R43). -/
abbrev memOk (p : Params) (sp : Space) (m : Memory) : Prop :=
  Memory.wf m ∧ ∀ c ∈ m, c.1 < spaceSize p sp

/-- What every step keeps: legal parameters (R12, R13), both memories in order and inside their size, the index
registers within IDX_W bits (R31), an error only after a completion (R22, R23), no delay running while no command
is pending. -/
abbrev StateInv (s : State) : Prop :=
  s.cfg.Legal ∧ memOk s.cfg .carrier s.carrier ∧ memOk s.cfg .payload s.payload ∧
  idxFits s.cfg s.offset ∧ idxFits s.cfg s.size ∧ idxFits s.cfg s.clen ∧ idxFits s.cfg s.hdr ∧
  (s.errcode ≠ none → s.done = true) ∧ (s.pcw = none → s.wait = 0)

/-- R125: the bytes of a range have been written since reset. -/
abbrev written (m : Memory) (start n : Nat) : Prop :=
  ∀ j < n, (memGet m (start + j)).isSome = true

/-- The value of a byte, 0 where nothing was written; statements use it only on written bytes. -/
def byteAt (m : Memory) (a : Nat) : Byte := (memGet m a).getD 0

/-- R41: every written-since-reset mark is clear. -/
abbrev marksClear (s : State) : Prop := s.carrier = [] ∧ s.payload = []

/-- R46: the carrier buffer of the next command exists. -/
abbrev clenOk (s : State) : Prop := s.clen.toNat ≤ s.cfg.carrierSize

/-- R36: one step of a run, the fault record and the refusal mark written where the step stops (R39, R121). -/
def stepRecorded (s : State) : State := recordStop s (step s)

/-- A run of `n` steps. -/
def runRecorded : Nat → State → State
  | 0, s => s
  | n + 1, s => runRecorded n (stepRecorded s)

/-- R136: a good end of a run: the host has executed its last operation, no command is pending, and neither the
fault record nor the refusal mark is set. The last operation has had its effect: a reset it asserted has been taken
(R122; log entry 13). -/
abbrev GoodEnd (s : State) : Prop :=
  nextHostOp s = none ∧ s.resetIn = false ∧ busy s = false ∧ s.faultRec = none ∧ s.refusalRec = none

/-- R136: what a run is observed by. -/
structure Observation where
  /-- the registers as the host reads them, STATUS to PLEN -/
  registers : List Word
  /-- carrier bytes 0 to CLEN-1 -/
  carrier : List (Option Byte)
  /-- payload bytes 0 to PLEN-1 -/
  payload : List (Option Byte)
deriving DecidableEq, Repr

/-- R136: the observation of a state. -/
def observe (s : State) : Observation :=
  { registers := [.status, .value, .offset, .size, .clen, .hdr, .plen].map (readSlot s)
    carrier := (List.range s.clen.toNat).map (memGet s.carrier)
    payload := (List.range s.plen.toNat).map (memGet s.payload) }

end Sys2Proof.Machine
end

