-- ==== Sys2Proof/Certificates/Slice0/Obligations.lean ====
section
/-! DEFINITION. The statements about the model. They name the registers as the spec does: o = OFFSET, sz = SIZE,
L = CLEN, H = HDR, n = PLEN. A state that a command leaves is written out as the state before it with the fields
that change; `errcode`, `done`, `pcw` and `wait` are STATUS.ERRCODE, STATUS.DONE, the pending command word (BUSY) and
the model's delay counter. -/

open Sys2Proof Sys2Proof.Machine

/-! ### Command encoding -/

/-- Words written out bit by bit from R59, R62 and R63 (and V51 to V55): what each decodes to. -/
def Obligations.DecodesTheTableWords : Prop :=
  decode 0x0000000000000001#64 = .ok .imprint ∧
  decode 0x0000000000000002#64 = .ok .extract ∧
  decode 0x0000000000000003#64 = .ok .hide ∧
  decode 0x0000000000000004#64 = .ok .recover ∧
  decode 0x0000000000000000#64 = .error (.reservedOpcode 0x0#4) ∧
  decode 0x0000000000000005#64 = .error (.reservedOpcode 0x5#4) ∧
  decode 0x000000000000000F#64 = .error (.reservedOpcode 0xF#4) ∧
  decode 0x0000000000000011#64 = .error .reservedBitsSet ∧
  decode 0x8000000000000002#64 = .error .reservedBitsSet

/-- R66: the command words are exactly 1, 2, 3 and 4; decoding and encoding agree; every other word is ILLEGAL. -/
def Obligations.DecodeAgreesWithEncode : Prop :=
  (∀ w, decode w = .ok .imprint ↔ w = 0x0000000000000001#64) ∧
  (∀ w, decode w = .ok .extract ↔ w = 0x0000000000000002#64) ∧
  (∀ w, decode w = .ok .hide ↔ w = 0x0000000000000003#64) ∧
  (∀ w, decode w = .ok .recover ↔ w = 0x0000000000000004#64) ∧
  (∀ w i, decode w = .ok i ↔ w = encode i) ∧
  (∀ w, (∀ i, w ≠ encode i) → ∃ r, decode w = .error r)

/-- R61, R63, R108, R113: a word with a bit of 63:4 set, or with OP 0x0 or 0x5 to 0xF, raises IllegalCommand and
changes nothing else, whatever the registers and memories hold. The engine moves when the delay is over or the host has
no operation left (log entry 3). -/
def Obligations.IllegalWordRaisesIllegalCommand : Prop :=
  ∀ (s : State) (w : Word), s.resetIn = false → s.pcw = some w → (s.wait = 0 ∨ nextHostOp s = none) →
    (w.toNat / 16 ≠ 0 ∨ w.toNat % 16 = 0 ∨ 5 ≤ w.toNat % 16) →
    step s = .next { s with errcode := some .illegalCommand, done := true, pcw := none, wait := 0 }

/-! ### Steps -/

/-- R36: when the engine moves and the pending word decodes to a command, a step is that command run on that state:
either its delay is over or the host has no operation left. -/
def Obligations.StepRunsPendingCommand : Prop :=
  ∀ (s : State) (w : Word) (i : Instr), s.resetIn = false → s.pcw = some w →
    (s.wait = 0 ∨ nextHostOp s = none) → decode w = .ok i → step s = exec i s

/-- A command placed for the next step is the one the next step runs. -/
def Obligations.StepRunsPlacedCommand : Prop :=
  ∀ (s : State) (w : Nat) (i : Instr), decodeTableWord 64 w = some i →
    step (s.withFetchWord 64 w) = exec i (s.withFetchWord 64 w)

/-- R122, R117: an asserted reset input is taken before anything else, a pending command's completion included. -/
def Obligations.ResetWins : Prop :=
  ∀ s : State, s.resetIn = true → step s = .next (applyReset s)

/-- R3, R124, and log entry 3: the host moves while no command is pending or while the pending command's delay
lasts; with nothing pending and nothing to do, the block is idle and stays as it is. -/
def Obligations.StepTakesTurns : Prop :=
  (∀ (s : State) (op : HostOp), s.resetIn = false → nextHostOp s = some op →
    (s.pcw = none ∨ s.wait ≠ 0) → step s = execHostOp op s) ∧
  (∀ s : State, s.resetIn = false → nextHostOp s = none → s.pcw = none → step s = .next s)

/-- R135 and log entry 3: a pending command is taken within as many steps as its delay, a finite number, unless the
host asserts reset or makes an access that stops the run. -/
def Obligations.PendingCommandIsTakenInFiniteTime : Prop :=
  ∀ (s : State) (w : Word), s.pcw = some w →
    ∃ k ≤ s.wait, ∀ t, Host.Core.run Sys2Proof.core k s = .next t →
      nextActor t = .engine w ∨ nextActor t = .reset

/-! ### Reset -/

/-- R40: the value of every register and field after reset, for every choice of parameters: right after
State.reset, and after the reset input is taken in any state. -/
def Obligations.ResetValues : Prop :=
  (∀ (p : Params) (r : Slot), readSlot (State.resetWith p) r = 0) ∧
  (∀ p : Params, (State.resetWith p).pcw = none ∧ busy (State.resetWith p) = false ∧
    (State.resetWith p).done = false ∧ errField (State.resetWith p) = 0#4 ∧
    (State.resetWith p).carrier = [] ∧ (State.resetWith p).payload = []) ∧
  (∀ (s : State) (r : Slot), readSlot (applyReset s) r = 0) ∧
  (∀ s : State, (applyReset s).pcw = none ∧ busy (applyReset s) = false ∧ (applyReset s).done = false ∧
    errField (applyReset s) = 0#4)

/-- R41, R122: a reset leaves every mark clear when no command is pending, and, by R123, when the pending word is
ILLEGAL or an EXTRACT, whose rules write no memory byte. Log entry 9, the model's reading of R123: also when the
pending command is one that its rule refuses or that raises before its first write. R39, R122: a reset never touches
the parameters, the host's own state, the fault record or the refusal mark. -/
def Obligations.ResetClearsMarksAndKeepsRecords : Prop :=
  (∀ s : State, s.pcw = none → marksClear (applyReset s)) ∧
  (∀ (s : State) (w : Word), s.pcw = some w → (∀ i, w ≠ encode i) → marksClear (applyReset s)) ∧
  (∀ s : State, s.pcw = some (encode .extract) → marksClear (applyReset s)) ∧
  (∀ (s : State) (i : Instr) (r : Refusal), s.pcw = some (encode i) → exec i s = .refused r →
    marksClear (applyReset s)) ∧
  (∀ s : State, s.pcw = some (encode .imprint) →
    (s.clen.toNat < s.offset.toNat + s.size.toNat ∨ idxMax s.cfg < s.offset.toNat + s.size.toNat) →
    marksClear (applyReset s)) ∧
  (∀ s : State, s.pcw = some (encode .hide) →
    (s.clen.toNat - (s.hdr.toNat + 32) < 4 * s.plen.toNat ∨ s.clen.toNat < s.hdr.toNat + 32 ∨
      idxMax s.cfg < s.hdr.toNat + 32) →
    marksClear (applyReset s)) ∧
  (∀ s : State, s.pcw = some (encode .recover) →
    (s.clen.toNat < s.hdr.toNat + 36 ∨ idxMax s.cfg < s.hdr.toNat + 32) → marksClear (applyReset s)) ∧
  (∀ s : State, (applyReset s).cfg = s.cfg ∧ (applyReset s).faultRec = s.faultRec ∧
    (applyReset s).refusalRec = s.refusalRec ∧ (applyReset s).script = s.script ∧
    (applyReset s).hpc = s.hpc ∧ (applyReset s).reads = s.reads)

/-- R123, V68: a reset that aborts an IMPRINT: every byte of its window is marked and holds a draw; every other
byte of both memories is unmarked. -/
def Obligations.AbortedImprintLeavesDraws : Prop :=
  ∀ s : State, s.pcw = some (encode .imprint) → s.cfg.Legal → clenOk s →
    (s.size.toNat ≤ 32 ∨ s.cfg.imprintWide = .zero) →
    s.offset.toNat + s.size.toNat ≤ s.clen.toNat →
    (applyReset s).payload = [] ∧
    ∀ a, memGet (applyReset s).carrier a =
      if s.offset.toNat ≤ a ∧ a < s.offset.toNat + s.size.toNat then
        some (Config.freeByte (s.draws + (a - s.offset.toNat))) else none

/-- R123: a reset that aborts a HIDE that fits: every carrier byte of its windows is marked and holds a draw. -/
def Obligations.AbortedHideLeavesDraws : Prop :=
  ∀ s : State, s.pcw = some (encode .hide) → s.cfg.Legal → clenOk s →
    s.hdr.toNat + 32 + 4 * s.plen.toNat ≤ s.clen.toNat →
    (applyReset s).payload = [] ∧
    ∀ a, memGet (applyReset s).carrier a =
      if s.hdr.toNat ≤ a ∧ a < s.hdr.toNat + 32 + 4 * s.plen.toNat then
        some (Config.freeByte (s.draws + (a - s.hdr.toNat))) else none

/-- R123: a reset that aborts a RECOVER whose length window is written and holds `m`: the payload bytes it could
have written, those whose window fits and no more than `m`, are marked and hold draws. -/
def Obligations.AbortedRecoverLeavesDraws : Prop :=
  ∀ (s : State) (m : Word), s.pcw = some (encode .recover) → s.cfg.Legal → clenOk s →
    s.hdr.toNat + 32 ≤ s.clen.toNat → written s.carrier s.hdr.toNat 32 →
    (∀ i < 32, pair m i = carried (byteAt s.carrier (s.hdr.toNat + i))) →
    (applyReset s).carrier = [] ∧
    ∀ a, memGet (applyReset s).payload a =
      if a < m.toNat ∧ s.hdr.toNat + 36 + 4 * a ≤ s.clen.toNat then
        some (Config.freeByte (s.draws + a)) else none

/-! ### Invariants of every step -/

/-- Every step keeps the invariant: legal parameters, memories in canonical form and inside their sizes, index
registers within IDX_W bits, an error only after a completion, no delay without a pending command. -/
def Obligations.StepKeepsInvariant : Prop :=
  ∀ s t : State, StateInv s → step s = .next t → StateInv t

/-- The invariant holds after reset for all legal parameters, and at State.reset. -/
def Obligations.ResetMeetsInvariant : Prop :=
  (∀ p : Params, p.Legal → StateInv (State.resetWith p)) ∧ StateInv State.reset

/-- The parameters and the host's program are fixed: no step changes them. -/
def Obligations.StepKeepsParameters : Prop :=
  ∀ s t : State, step s = .next t → t.cfg = s.cfg ∧ t.script = s.script

/-- R39: the fault record and the refusal mark are set by a step that stops, and never cleared by a later step, a
reset among them. -/
def Obligations.RecordsAreNeverCleared : Prop :=
  (∀ (s : State) (f : Fault), step s = .fault f → (stepRecorded s).faultRec = some f) ∧
  (∀ (s : State) (r : Refusal), step s = .refused r → (stepRecorded s).refusalRec = some r) ∧
  (∀ (n : Nat) (s : State),
    (s.faultRec ≠ none → (runRecorded n s).faultRec ≠ none) ∧
    (s.refusalRec ≠ none → (runRecorded n s).refusalRec ≠ none)) ∧
  (∀ s : State, (applyReset s).faultRec = s.faultRec ∧ (applyReset s).refusalRec = s.refusalRec)

/-- R21: an accepted write of CMD sets BUSY, and the completion of the pending command, with or without an error,
clears it; it goes from 0 to 1 only by such a write, and from 1 to 0 only by such a completion or by reset. -/
def Obligations.BusyChangesOnlyByCommandAndReset : Prop :=
  (∀ (s t : State) (w : Word), nextActor s = .host (.regWrite 0 8 w) → step s = .next t → busy t = true) ∧
  (∀ s t : State, step s = .next t → busy s = false → busy t = true →
    ∃ w, nextActor s = .host (.regWrite 0 8 w) ∧ t.pcw = some w) ∧
  (∀ s t : State, step s = .next t → busy s = true → busy t = false →
    (∃ w, s.pcw = some w ∧ nextActor s = .engine w ∧ t.done = true) ∨ s.resetIn = true) ∧
  (∀ (s t : State) (w : Word), nextActor s = .engine w → step s = .next t → busy t = false)

/-- R22: DONE is 0 after reset, 1 after the completion of any command with or without an error, and a step that is no
reset never clears it. -/
def Obligations.DoneIsSetByCompletionAndKept : Prop :=
  (∀ s : State, (applyReset s).done = false) ∧
  (∀ (s t : State) (w : Word), nextActor s = .engine w → step s = .next t → t.done = true) ∧
  (∀ s t : State, step s = .next t → s.done = true → s.resetIn = false → t.done = true)

/-- R23, R114: ERRCODE keeps its value until the next command completes or reset: no operation of the host and no
idle step changes it, or DONE. -/
def Obligations.ErrcodeKeptUntilCompletion : Prop :=
  ∀ s t : State, step s = .next t → s.resetIn = false → (∀ w, nextActor s ≠ .engine w) →
    t.errcode = s.errcode ∧ t.done = s.done

/-! ### STATUS -/

/-- R20, R23, R24: the fields of the STATUS word in every state; the reserved bits read as 0 and ERRCODE is 0 to 5. -/
def Obligations.StatusWordFields : Prop :=
  ∀ s : State,
    (statusWord s).getLsbD 0 = busy s ∧
    (statusWord s).getLsbD 1 = s.done ∧
    (statusWord s).extractLsb' 2 6 = 0#6 ∧
    (statusWord s).extractLsb' 8 4 = errField s ∧
    (statusWord s).extractLsb' 12 52 = 0#52 ∧
    (errField s).toNat ≤ 5 ∧
    (busy s = true ↔ s.pcw ≠ none)

/-- R103: the code of each error kind, and 0 for none. -/
def Obligations.ErrorCodes : Prop :=
  ∀ s : State,
    (s.errcode = none → (errField s).toNat = 0) ∧
    (s.errcode = some .overflow → (errField s).toNat = 1) ∧
    (s.errcode = some .outOfBounds → (errField s).toNat = 2) ∧
    (s.errcode = some .capacityExceeded → (errField s).toNat = 3) ∧
    (s.errcode = some .sizeLimitExceeded → (errField s).toNat = 4) ∧
    (s.errcode = some .illegalCommand → (errField s).toNat = 5)

/-- R103 to R107: which errors each command can end with. -/
def Obligations.ErrorsOfEachCommand : Prop :=
  (∀ s t : State, exec .imprint s = .next t → t.errcode = none ∨ t.errcode = some .overflow ∨
    t.errcode = some .outOfBounds) ∧
  (∀ s t : State, exec .extract s = .next t → t.errcode = none ∨ t.errcode = some .overflow ∨
    t.errcode = some .outOfBounds ∨ t.errcode = some .sizeLimitExceeded) ∧
  (∀ s t : State, exec .hide s = .next t → t.errcode = none ∨ t.errcode = some .overflow ∨
    t.errcode = some .outOfBounds ∨ t.errcode = some .capacityExceeded) ∧
  (∀ s t : State, exec .recover s = .next t → t.errcode = none ∨ t.errcode = some .overflow ∨
    t.errcode = some .outOfBounds)

/-- R111, R112: every command that answers a next state completes: DONE is set, BUSY cleared, the pending word
discarded; OFFSET, SIZE, CLEN and HDR are never written, and on an error neither is VALUE nor PLEN. -/
def Obligations.EveryCommandCompletes : Prop :=
  ∀ (i : Instr) (s t : State), exec i s = .next t →
    t.done = true ∧ t.pcw = none ∧ busy t = false ∧
    t.offset = s.offset ∧ t.size = s.size ∧ t.clen = s.clen ∧ t.hdr = s.hdr ∧
    (t.errcode ≠ none → t.value = s.value ∧ t.plen = s.plen)

/-! ### Refusals and faults of commands -/

/-- R46, R110, R121: a command executed with CLEN > CARRIER_SIZE is refused, before any check of the hardware. -/
def Obligations.ClenBeyondMemoryIsRefused : Prop :=
  ∀ (i : Instr) (s : State), s.cfg.carrierSize < s.clen.toNat → exec i s = .refused .clenBeyondMemory

/-- R14, R121: IMPRINT with SIZE > 32 is refused when the parameter IMPRINT_WIDE is `refuse`. -/
def Obligations.WideImprintIsRefused : Prop :=
  ∀ s : State, clenOk s → 32 < s.size.toNat → s.cfg.imprintWide = .refuse →
    exec .imprint s = .refused .imprintWide

/-- R58: IMPRINT and EXTRACT fault at the first byte of their window that was never written since reset; IMPRINT at
every window size it runs with (R14), EXTRACT up to its ceiling of 32. -/
def Obligations.UnwrittenWindowByteFaults : Prop :=
  ∀ (s : State) (j : Nat), s.cfg.Legal → clenOk s → s.offset.toNat + s.size.toNat ≤ s.clen.toNat →
    j < s.size.toNat → written s.carrier s.offset.toNat j → memGet s.carrier (s.offset.toNat + j) = none →
    ((s.size.toNat ≤ 32 ∨ s.cfg.imprintWide = .zero) →
      exec .imprint s = .fault (.uninitRead .carrier (s.offset.toNat + j))) ∧
    (s.size.toNat ≤ 32 → exec .extract s = .fault (.uninitRead .carrier (s.offset.toNat + j)))

/-- R58: HIDE faults at the first byte it reads that was never written, in the order of R89: a carrier byte of the
length window; payload byte `k`; a carrier byte of window `k`, the bytes it reads before being written. -/
def Obligations.HideUnwrittenPayloadFaults : Prop :=
  ∀ s : State, s.cfg.Legal → clenOk s → s.hdr.toNat + 32 + 4 * s.plen.toNat ≤ s.clen.toNat →
    (∀ j < 32, written s.carrier s.hdr.toNat j → memGet s.carrier (s.hdr.toNat + j) = none →
      exec .hide s = .fault (.uninitRead .carrier (s.hdr.toNat + j))) ∧
    (∀ k < s.plen.toNat, written s.carrier s.hdr.toNat (32 + 4 * k) → written s.payload 0 k →
      memGet s.payload k = none → exec .hide s = .fault (.uninitRead .payload k)) ∧
    (∀ k < s.plen.toNat, ∀ j < 4, written s.carrier s.hdr.toNat (32 + 4 * k + j) →
      written s.payload 0 (k + 1) → memGet s.carrier (s.hdr.toNat + 32 + 4 * k + j) = none →
      exec .hide s = .fault (.uninitRead .carrier (s.hdr.toNat + 32 + 4 * k + j)))

/-- R58: RECOVER faults at the first byte it reads that was never written: a byte of its length window, or, that window
holding a length `m`, a byte of window `k` below `m` that fits the carrier buffer, the windows below it being
written. -/
def Obligations.RecoverUnwrittenLengthFaults : Prop :=
  ∀ s : State, s.cfg.Legal → clenOk s →
    (∀ j < 32, s.hdr.toNat + 32 ≤ s.clen.toNat → written s.carrier s.hdr.toNat j →
      memGet s.carrier (s.hdr.toNat + j) = none →
      exec .recover s = .fault (.uninitRead .carrier (s.hdr.toNat + j))) ∧
    (∀ (m : Word) (k : Nat), (∀ i < 32, pair m i = carried (byteAt s.carrier (s.hdr.toNat + i))) →
      k < m.toNat → s.hdr.toNat + 36 + 4 * k ≤ s.clen.toNat →
      ∀ j < 4, written s.carrier s.hdr.toNat (32 + 4 * k + j) →
        memGet s.carrier (s.hdr.toNat + 32 + 4 * k + j) = none →
        exec .recover s = .fault (.uninitRead .carrier (s.hdr.toNat + 32 + 4 * k + j)))

/-! ### IMPRINT -/

/-- R72: the pair that goes into window byte `i`: a base-4 digit of the value, and 0 from the 32nd on. -/
def Obligations.PairSelection : Prop :=
  (∀ (v : Word) (i : Nat), (pair v i).toNat = v.toNat / 4 ^ i % 4) ∧
  (∀ (v : Word) (i : Nat), 32 ≤ i → pair v i = 0)

/-- R73: IMPRINT completes on a written window inside the carrier buffer: each window byte keeps bits 7:2 and carries
its pair, every other byte and every register but STATUS is as before. -/
def Obligations.ImprintWritesWindow : Prop :=
  ∀ s : State, s.cfg.Legal → clenOk s → (s.size.toNat ≤ 32 ∨ s.cfg.imprintWide = .zero) →
    s.offset.toNat + s.size.toNat ≤ s.clen.toNat → written s.carrier s.offset.toNat s.size.toNat →
    ∃ c, exec .imprint s =
        .next { s with carrier := c, errcode := none, done := true, pcw := none, wait := 0 } ∧
      ∀ a, memGet c a =
        if s.offset.toNat ≤ a ∧ a < s.offset.toNat + s.size.toNat then
          some ((byteAt s.carrier a).extractLsb' 2 6 ++ pair s.value (a - s.offset.toNat))
        else memGet s.carrier a

/-- R76, R51: whatever IMPRINT ends with, no byte outside its window changes, no bits 7:2 change, nor the payload
memory, nor any register but STATUS. -/
def Obligations.ImprintFrame : Prop :=
  ∀ s t : State, exec .imprint s = .next t →
    ∃ c e, t = { s with carrier := c, errcode := e, done := true, pcw := none, wait := 0 } ∧
      (∀ a, ¬ (s.offset.toNat ≤ a ∧ a < s.offset.toNat + s.size.toNat) →
        memGet c a = memGet s.carrier a) ∧
      (∀ a, (memGet c a).map (fun b => b.extractLsb' 2 6) =
        (memGet s.carrier a).map (fun b => b.extractLsb' 2 6)) ∧
      (e ≠ none → c = s.carrier)

/-- R78, R71: IMPRINT and EXTRACT with a window beyond CLEN raise OutOfBounds, or Overflow when its end is above
IDX_MAX; no byte and no register but STATUS changes. -/
def Obligations.WindowBeyondBufferIsRejected : Prop :=
  ∀ s : State, clenOk s →
    (s.clen.toNat < s.offset.toNat + s.size.toNat → s.offset.toNat + s.size.toNat ≤ idxMax s.cfg →
      ((s.size.toNat ≤ 32 ∨ s.cfg.imprintWide = .zero) → exec .imprint s =
        .next { s with errcode := some .outOfBounds, done := true, pcw := none, wait := 0 }) ∧
      exec .extract s =
        .next { s with errcode := some .outOfBounds, done := true, pcw := none, wait := 0 }) ∧
    (idxMax s.cfg < s.offset.toNat + s.size.toNat →
      ((s.size.toNat ≤ 32 ∨ s.cfg.imprintWide = .zero) → exec .imprint s =
        .next { s with errcode := some .overflow, done := true, pcw := none, wait := 0 }) ∧
      exec .extract s =
        .next { s with errcode := some .overflow, done := true, pcw := none, wait := 0 })

/-- R80: the bits of VALUE above bit 2*SIZE-1 change nothing: IMPRINT raises no error for them and writes them
nowhere. -/
def Obligations.ImprintDropsHighBits : Prop :=
  ∀ (s t : State) (v : Word), v.toNat % 4 ^ s.size.toNat = s.value.toNat % 4 ^ s.size.toNat →
    exec .imprint s = .next t → exec .imprint { s with value := v } = .next { t with value := v }

/-! ### EXTRACT -/

/-- R74, R82: EXTRACT completes on a written window of at most 32 bytes inside the carrier buffer; VALUE holds the pairs
of its bytes, lowest first, and 0 above them: the sum of the byte's low two bits times 4^i. -/
def Obligations.ExtractReadsWindow : Prop :=
  ∀ s : State, s.cfg.Legal → clenOk s → s.size.toNat ≤ 32 →
    s.offset.toNat + s.size.toNat ≤ s.clen.toNat → written s.carrier s.offset.toNat s.size.toNat →
    ∃ v : Word, exec .extract s =
        .next { s with value := v, errcode := none, done := true, pcw := none, wait := 0 } ∧
      (∀ i, pair v i = if i < s.size.toNat then
        (byteAt s.carrier (s.offset.toNat + i)).extractLsb' 0 2 else 0) ∧
      v.toNat = ((List.range s.size.toNat).map
        (fun i => (byteAt s.carrier (s.offset.toNat + i)).toNat % 4 * 4 ^ i)).sum

/-- R79: EXTRACT with SIZE above 32 raises SizeLimitExceeded whenever the window passes the window check, whatever
CLEN is. -/
def Obligations.ExtractSizeCeiling : Prop :=
  ∀ s : State, clenOk s → 32 < s.size.toNat → s.offset.toNat + s.size.toNat ≤ idxMax s.cfg →
    s.offset.toNat + s.size.toNat ≤ s.clen.toNat →
    exec .extract s =
      .next { s with errcode := some .sizeLimitExceeded, done := true, pcw := none, wait := 0 }

/-- R25, R52, R74: EXTRACT writes no memory byte and no register but VALUE and STATUS, and VALUE only on success. -/
def Obligations.ExtractFrame : Prop :=
  ∀ s t : State, exec .extract s = .next t →
    ∃ v e, t = { s with value := v, errcode := e, done := true, pcw := none, wait := 0 } ∧
      (e ≠ none → v = s.value)

/-- R77: two EXTRACTs with the same OFFSET, SIZE and CLEN over the same carrier end with the same ERRCODE and, on
success, the same VALUE; EXTRACT changes no memory byte. -/
def Obligations.ExtractIsIdempotent : Prop :=
  ∀ s u t : State, u.cfg = s.cfg → u.offset = s.offset → u.size = s.size → u.clen = s.clen →
    u.carrier = s.carrier → exec .extract s = .next t →
    t.carrier = s.carrier ∧ t.payload = s.payload ∧
    ∃ t', exec .extract u = .next t' ∧ t'.errcode = t.errcode ∧
      (t.errcode = none → t'.value = t.value)

/-! ### IMPRINT and EXTRACT together -/

/-- R75: the round trip. IMPRINT, then EXTRACT of the same window, complete both with ERRCODE 0 and leave VALUE
modulo 2^(2*SIZE), which is VALUE itself when it fits the window. -/
def Obligations.ImprintExtractRoundTrip : Prop :=
  ∀ s : State, s.cfg.Legal → clenOk s → s.size.toNat ≤ 32 →
    s.offset.toNat + s.size.toNat ≤ s.clen.toNat → written s.carrier s.offset.toNat s.size.toNat →
    ∃ t u : State, exec .imprint s = .next t ∧ t.errcode = none ∧
      exec .extract t = .next u ∧ u.errcode = none ∧
      u.value.toNat = s.value.toNat % 2 ^ (2 * s.size.toNat) ∧
      (s.value.toNat < 2 ^ (2 * s.size.toNat) → u.value = s.value)

/-- R83: EXTRACT then IMPRINT of what it read leaves every carrier byte as it was. -/
def Obligations.ExtractThenImprintIsIdentity : Prop :=
  ∀ s t : State, exec .extract s = .next t → t.errcode = none →
    ∃ u : State, exec .imprint t = .next u ∧ u.errcode = none ∧
      ∀ a, memGet u.carrier a = memGet s.carrier a

/-! ### HIDE -/

/-- R84 to R86, R89: HIDE completes when the payload fits: the length window holds PLEN, window `k` holds payload byte
`k`, bits 7:2 stay, every other byte and every register but STATUS is as before. -/
def Obligations.HideWritesLayout : Prop :=
  ∀ s : State, s.cfg.Legal → clenOk s → s.hdr.toNat + 32 + 4 * s.plen.toNat ≤ s.clen.toNat →
    written s.carrier s.hdr.toNat (32 + 4 * s.plen.toNat) → written s.payload 0 s.plen.toNat →
    ∃ c, exec .hide s =
        .next { s with carrier := c, errcode := none, done := true, pcw := none, wait := 0 } ∧
      (∀ i < 32, memGet c (s.hdr.toNat + i) =
        some (setCarried (byteAt s.carrier (s.hdr.toNat + i)) (pair s.plen i))) ∧
      (∀ k < s.plen.toNat, ∀ i < 4, memGet c (s.hdr.toNat + 32 + 4 * k + i) =
        some (setCarried (byteAt s.carrier (s.hdr.toNat + 32 + 4 * k + i))
          (pair ((byteAt s.payload k).setWidth 64) i))) ∧
      (∀ a, ¬ (s.hdr.toNat ≤ a ∧ a < s.hdr.toNat + 32 + 4 * s.plen.toNat) →
        memGet c a = memGet s.carrier a)

/-- R98, R88, R107: a HIDE whose payload does not fit raises CapacityExceeded and changes nothing but STATUS; the sums
are exact, so 4*PLEN never wraps (V40). -/
def Obligations.HideCapacityRejection : Prop :=
  ∀ s : State, clenOk s → s.clen.toNat - (s.hdr.toNat + 32) < 4 * s.plen.toNat →
    exec .hide s =
      .next { s with errcode := some .capacityExceeded, done := true, pcw := none, wait := 0 }

/-- R89, 90_conflicts.md C6: a HIDE of an empty payload whose length window does not fit passes the capacity check and
raises Overflow or OutOfBounds, with no write. -/
def Obligations.HideEmptyPayloadErrors : Prop :=
  ∀ s : State, clenOk s → s.plen.toNat = 0 →
    (idxMax s.cfg < s.hdr.toNat + 32 → exec .hide s =
      .next { s with errcode := some .overflow, done := true, pcw := none, wait := 0 }) ∧
    (s.hdr.toNat + 32 ≤ idxMax s.cfg → s.clen.toNat < s.hdr.toNat + 32 → exec .hide s =
      .next { s with errcode := some .outOfBounds, done := true, pcw := none, wait := 0 })

/-- R91: HIDE is all or nothing: a HIDE that raises has written no carrier byte; with a non-empty payload that fits it
raises nothing; a HIDE that completes has written every window. -/
def Obligations.HideIsAllOrNothing : Prop :=
  ∀ s t : State, s.cfg.Legal → exec .hide s = .next t →
    (t.errcode ≠ none → t.carrier = s.carrier) ∧
    (1 ≤ s.plen.toNat → capacityOk s.plen.toNat s.hdr.toNat s.clen.toNat = true → t.errcode = none) ∧
    (t.errcode = none →
      (∀ i < 32, (memGet t.carrier (s.hdr.toNat + i)).map carried = some (pair s.plen i)) ∧
      (∀ k < s.plen.toNat, ∀ i < 4, (memGet t.carrier (s.hdr.toNat + 32 + 4 * k + i)).map carried =
        some (pair ((byteAt s.payload k).setWidth 64) i)))

/-- R97: HIDE changes only bits 1:0 of carrier bytes H to H+31+4n, no payload byte and no register but STATUS; RECOVER
changes no carrier byte. -/
def Obligations.FramerNonInterference : Prop :=
  (∀ s t : State, exec .hide s = .next t →
    ∃ c e, t = { s with carrier := c, errcode := e, done := true, pcw := none, wait := 0 } ∧
      (∀ a, ¬ (s.hdr.toNat ≤ a ∧ a < s.hdr.toNat + 32 + 4 * s.plen.toNat) →
        memGet c a = memGet s.carrier a) ∧
      (∀ a, (memGet c a).map (fun b => b.extractLsb' 2 6) =
        (memGet s.carrier a).map (fun b => b.extractLsb' 2 6))) ∧
  (∀ s t : State, exec .recover s = .next t → t.carrier = s.carrier)

/-! ### RECOVER -/

/-- R92: RECOVER completes when the length window holds a length `m` that fits: PLEN is `m`, payload byte `k` below `m`
is what window `k` carries, every other byte and every register but STATUS is as before. -/
def Obligations.RecoverReadsPayload : Prop :=
  ∀ (s : State) (m : Word), s.cfg.Legal → clenOk s →
    (∀ i < 32, pair m i = carried (byteAt s.carrier (s.hdr.toNat + i))) →
    s.hdr.toNat + 32 + 4 * m.toNat ≤ s.clen.toNat →
    written s.carrier s.hdr.toNat (32 + 4 * m.toNat) →
    ∃ pl, exec .recover s = .next { s with payload := pl, plen := m, errcode := none, done := true,
                                            pcw := none, wait := 0 } ∧
      (∀ k < m.toNat, ∃ b : Byte, memGet pl k = some b ∧ ∀ i < 4, pair (b.setWidth 64) i =
        carried (byteAt s.carrier (s.hdr.toNat + 32 + 4 * k + i))) ∧
      (∀ k, m.toNat ≤ k → memGet pl k = memGet s.payload k)

/-- R94, R92: a RECOVER whose length `m` does not fit raises OutOfBounds at the first window that does not fit, number
`k0`; the payload bytes below `k0` hold what their windows carry, those from `k0` up and PLEN are as before. -/
def Obligations.RecoverTooLongKeepsPlen : Prop :=
  ∀ (s : State) (m : Word) (k0 : Nat), s.cfg.Legal → clenOk s →
    (∀ i < 32, pair m i = carried (byteAt s.carrier (s.hdr.toNat + i))) →
    s.hdr.toNat + 32 ≤ s.clen.toNat → k0 = (s.clen.toNat - (s.hdr.toNat + 32)) / 4 → k0 < m.toNat →
    written s.carrier s.hdr.toNat (32 + 4 * k0) →
    ∃ pl, exec .recover s = .next { s with payload := pl, errcode := some .outOfBounds, done := true,
                                            pcw := none, wait := 0 } ∧
      (∀ k < k0, ∃ b : Byte, memGet pl k = some b ∧ ∀ i < 4, pair (b.setWidth 64) i =
        carried (byteAt s.carrier (s.hdr.toNat + 32 + 4 * k + i))) ∧
      (∀ k, k0 ≤ k → memGet pl k = memGet s.payload k)

/-- R92, R104, R105: a RECOVER whose length window does not fit raises Overflow or OutOfBounds and changes nothing but
STATUS. -/
def Obligations.RecoverLengthWindowErrors : Prop :=
  ∀ s : State, clenOk s →
    (idxMax s.cfg < s.hdr.toNat + 32 → exec .recover s =
      .next { s with errcode := some .overflow, done := true, pcw := none, wait := 0 }) ∧
    (s.hdr.toNat + 32 ≤ idxMax s.cfg → s.clen.toNat < s.hdr.toNat + 32 → exec .recover s =
      .next { s with errcode := some .outOfBounds, done := true, pcw := none, wait := 0 })

/-- R93, R30: RECOVER changes only the payload memory, PLEN and STATUS; a payload byte it changes is one whose window
fits the carrier buffer, inside the payload memory; on an error PLEN is as before. -/
def Obligations.RecoverFrame : Prop :=
  ∀ s t : State, exec .recover s = .next t →
    ∃ pl q e, t = { s with payload := pl, plen := q, errcode := e, done := true, pcw := none, wait := 0 } ∧
      (e ≠ none → q = s.plen) ∧
      (∀ k, memGet pl k ≠ memGet s.payload k →
        s.hdr.toNat + 36 + 4 * k ≤ s.clen.toNat ∧ k < s.cfg.payloadSize)

/-- R96: the framer's round trip: HIDE, then RECOVER with the same HDR and CLEN over the carrier that HIDE left, whatever
the payload memory and the other registers hold by then, complete both with ERRCODE 0 and give PLEN and the payload
back. -/
def Obligations.HideRecoverRoundTrip : Prop :=
  ∀ s : State, s.cfg.Legal → clenOk s → capacityOk s.plen.toNat s.hdr.toNat s.clen.toNat = true →
    s.hdr.toNat + 32 ≤ s.clen.toNat →
    written s.carrier s.hdr.toNat (32 + 4 * s.plen.toNat) → written s.payload 0 s.plen.toNat →
    ∃ t, exec .hide s = .next t ∧ t.errcode = none ∧
      ∀ u : State, u.cfg = t.cfg → u.carrier = t.carrier → u.hdr = t.hdr → u.clen = t.clen →
        ∃ r, exec .recover u = .next r ∧ r.errcode = none ∧ r.plen = s.plen ∧
          ∀ k < s.plen.toNat, memGet r.payload k = memGet s.payload k

/-! ### The host's accesses -/

/-- R18, R31: a write of VALUE or PLEN stores the word, a write of an index register its bits IDX_W-1:0, and a read
of any slot gives the value the slot holds, zero-extended; no other register slot changes, no memory and no
STATUS. -/
def Obligations.HostWritesRegister : Prop :=
  ∀ (s : State) (v : Word) (r : Slot), busy s = false →
    (r = .value ∨ r = .plen ∨ r = .offset ∨ r = .size ∨ r = .clen ∨ r = .hdr) →
    ∃ t, execHostOp (.regWrite (slotOffset r) 8 v) s = .next t ∧
      (r = .value ∨ r = .plen → readSlot t r = v) ∧
      (r = .offset ∨ r = .size ∨ r = .clen ∨ r = .hdr →
        (readSlot t r).toNat = v.toNat % 2 ^ s.cfg.idxW.bits) ∧
      (∀ r', r' ≠ r → readSlot t r' = readSlot s r') ∧
      (∀ r', execHostOp (.regRead (slotOffset r') 8) t =
        .next (advance { t with reads := .word (readSlot t r') :: t.reads })) ∧
      t.carrier = s.carrier ∧ t.payload = s.payload ∧ t.pcw = s.pcw

/-- R20, R32: host writes to STATUS are ignored; a reserved slot reads as 0 and ignores writes; an access outside the
16 slots or of another width than a whole slot is refused. -/
def Obligations.ReservedSlotsAndShapes : Prop :=
  (∀ (s : State) (v : Word), busy s = false →
    execHostOp (.regWrite 0x08 8 v) s = .next (advance s)) ∧
  (∀ (s : State) (v : Word) (k : Nat), 8 ≤ k → k ≤ 15 →
    execHostOp (.regWrite (8 * k) 8 v) s = .next (advance s) ∧
    execHostOp (.regRead (8 * k) 8) s = .next (advance { s with reads := .word 0 :: s.reads })) ∧
  (∀ (s : State) (v : Word) (a n : Nat), ¬ (n = 8 ∧ a % 8 = 0 ∧ a < 128) →
    execHostOp (.regWrite a n v) s = .refused .hostAccessShape ∧
    execHostOp (.regRead a n) s = .refused .hostAccessShape)

/-- R19: a CMD write while BUSY is 0 latches the word and sets BUSY, and changes no register and no memory; a read of
CMD gives 0 in every state; a CMD write while BUSY is 1 is refused. -/
def Obligations.CommandWriteStartsCommand : Prop :=
  (∀ (s : State) (w : Word), busy s = false →
    ∃ t, execHostOp (.regWrite 0x00 8 w) s = .next t ∧ t.pcw = some w ∧ busy t = true ∧
      t.value = s.value ∧ t.offset = s.offset ∧ t.size = s.size ∧ t.clen = s.clen ∧ t.hdr = s.hdr ∧
      t.plen = s.plen ∧ t.done = s.done ∧ t.errcode = s.errcode ∧ t.carrier = s.carrier ∧
      t.payload = s.payload) ∧
  (∀ s : State, execHostOp (.regRead 0x00 8) s =
    .next (advance { s with reads := .word 0 :: s.reads })) ∧
  (∀ (s : State) (w : Word), busy s = true →
    execHostOp (.regWrite 0x00 8 w) s = .refused .hostWriteWhileBusy)

/-- R131: a host write to any register (CMD included) or to any carrier or payload byte while BUSY is 1 is refused. -/
def Obligations.HostWriteWhileBusyIsRefused : Prop :=
  ∀ s : State, busy s = true →
    (∀ (r : Slot) (v : Word), r ≠ .reserved →
      execHostOp (.regWrite (slotOffset r) 8 v) s = .refused .hostWriteWhileBusy) ∧
    (∀ (sp : Space) (a : Nat) (b : Byte), a < spaceSize s.cfg sp →
      execHostOp (.memWrite sp a 1 b) s = .refused .hostWriteWhileBusy)

/-- R129: host reads while BUSY is 1: STATUS with BUSY 1 and DONE and ERRCODE as they are; CMD and the reserved slots 0;
any other register, and any byte of a memory, a draw. -/
def Obligations.HostReadsWhileBusy : Prop :=
  ∀ s : State, busy s = true →
    (execHostOp (.regRead 0x08 8) s =
        .next (advance { s with reads := .word (statusWord s) :: s.reads }) ∧
      (statusWord s).getLsbD 0 = true ∧ (statusWord s).getLsbD 1 = s.done ∧
      (statusWord s).extractLsb' 8 4 = errField s) ∧
    (execHostOp (.regRead 0x00 8) s = .next (advance { s with reads := .word 0 :: s.reads })) ∧
    (∀ k, 8 ≤ k → k ≤ 15 → execHostOp (.regRead (8 * k) 8) s =
        .next (advance { s with reads := .word 0 :: s.reads })) ∧
    (∀ r : Slot, (r = .value ∨ r = .offset ∨ r = .size ∨ r = .clen ∨ r = .hdr ∨ r = .plen) →
      execHostOp (.regRead (slotOffset r) 8) s =
        .next (advance { s with reads := .word (Config.freeWord s.draws) :: s.reads,
                                draws := s.draws + 1 })) ∧
    (∀ (sp : Space) (a : Nat), a < spaceSize s.cfg sp →
      execHostOp (.memRead sp a 1) s =
        .next (advance { s with reads := .byte (Config.freeByte s.draws) :: s.reads,
                                draws := s.draws + 1 }))

/-- R42, R43, R133: a byte the host writes while BUSY is 0 is what it reads next; every other byte of both memories is
as before, and so is every register. -/
def Obligations.HostByteWriteThenRead : Prop :=
  ∀ (s : State) (sp : Space) (a : Nat) (b : Byte), busy s = false → a < spaceSize s.cfg sp →
    ∃ t, execHostOp (.memWrite sp a 1 b) s = .next t ∧
      execHostOp (.memRead sp a 1) t = .next (advance { t with reads := .byte b :: t.reads }) ∧
      (∀ sp' a', ¬ (sp' = sp ∧ a' = a) → memGet (memoryOf t sp') a' = memGet (memoryOf s sp') a') ∧
      (∀ r, readSlot t r = readSlot s r)

/-- R50, R58: a host read of a byte that nothing has written is a fault; an access of another width than one byte, or at
an address the memory does not have, is refused. -/
def Obligations.HostByteAccessStops : Prop :=
  (∀ (s : State) (sp : Space) (a : Nat), busy s = false → a < spaceSize s.cfg sp →
    memGet (memoryOf s sp) a = none → execHostOp (.memRead sp a 1) s = .fault (.uninitRead sp a)) ∧
  (∀ (s : State) (sp : Space) (a n : Nat) (b : Byte), (n ≠ 1 ∨ spaceSize s.cfg sp ≤ a) →
    execHostOp (.memRead sp a n) s = .refused .hostAccessShape ∧
    execHostOp (.memWrite sp a n b) s = .refused .hostAccessShape)

/-- R52: a read of the host has no side effect on the block: only what the host has read, its place, the delay of the
pending command and the count of draws change. -/
def Obligations.HostReadsHaveNoSideEffect : Prop :=
  ∀ (s t : State) (op : HostOp),
    ((∃ a n, op = .regRead a n) ∨ (∃ sp a n, op = .memRead sp a n) ∨ (∃ k, op = .bnzBusy k)) →
    execHostOp op s = .next t →
    ∃ k r d, t = { s with hpc := k, wait := s.wait - 1, reads := r, draws := d }

/-- R68: `bnz.busy` goes to its line while BUSY is 1 and on to the next when it is 0. -/
def Obligations.PollBranchesOnBusy : Prop :=
  ∀ (s : State) (k : Nat),
    (busy s = true →
      execHostOp (.bnzBusy k) s = .next { s with hpc := k, wait := s.wait - 1 }) ∧
    (busy s = false →
      execHostOp (.bnzBusy k) s = .next { s with hpc := s.hpc + 1, wait := s.wait - 1 })

/-! ### The end of a run -/

/-- R136, R39: with no fault and no refusal recorded, a good end is exactly a state that a step leaves as it is: nothing is
left to do, a reset the host asserted included. So the observation there is the same however much later it is taken. -/
def Obligations.GoodEndIsWhereARunRests : Prop :=
  (∀ s : State, GoodEnd s ↔ step s = .next s ∧ s.faultRec = none ∧ s.refusalRec = none) ∧
  (∀ s : State, GoodEnd s → ∀ n, observe (runRecorded n s) = observe s)
end

