-- ==== Sys2Proof/Laws/Decode.lean ====
section
/-! SUPPORT. The laws of decoding: a word is its two fields, an opcode names at most one command. -/

namespace Sys2Proof

/-- R59: a command word is RSVD above OP. -/
theorem word_split (w : Word) : w = rsvdField w ++ opField w := by
  apply BitVec.eq_of_toNat_eq
  have h := w.isLt
  have e : (rsvdField w ++ opField w).toNat = (w.toNat >>> 4 % 2 ^ 60) <<< 4 ||| w.toNat % 2 ^ 4 :=
    (BitVec.toNat_append _ _).trans (by simp [rsvdField, opField, BitVec.extractLsb'_toNat])
  rw [e, ← Nat.shiftLeft_add_eq_or_of_lt (Nat.mod_lt _ (by norm_num))]
  simp only [Nat.shiftLeft_eq, Nat.shiftRight_eq_div_pow]
  omega

/-- R62, R63: the opcodes, one command each. -/
theorem decodeOp_ok_iff (op : BitVec 4) (i : Instr) : decodeOp op = .ok i ↔ op = opcodeOf i := by
  cases i <;> revert op <;> decide

end Sys2Proof
end

