-- ==== Sys2Proof/Laws/State.lean ====
section
/-! SUPPORT. What each named update of the state does to each field: one lemma per field per update, true by rfl. -/

namespace Sys2Proof.Machine

variable (s : State)

@[simp] theorem raiseError_eq (e : ErrKind) : raiseError e s = finish (some e) s := rfl
@[simp] theorem complete_eq : complete s = finish none s := rfl
@[simp] theorem advance_eq : advance s = goTo (s.hpc + 1) s := rfl

/-! ### finish -/

@[simp] theorem finish_cfg (e : Option ErrKind) : (finish e s).cfg = s.cfg := rfl
@[simp] theorem finish_value (e : Option ErrKind) : (finish e s).value = s.value := rfl
@[simp] theorem finish_offset (e : Option ErrKind) : (finish e s).offset = s.offset := rfl
@[simp] theorem finish_size (e : Option ErrKind) : (finish e s).size = s.size := rfl
@[simp] theorem finish_clen (e : Option ErrKind) : (finish e s).clen = s.clen := rfl
@[simp] theorem finish_hdr (e : Option ErrKind) : (finish e s).hdr = s.hdr := rfl
@[simp] theorem finish_plen (e : Option ErrKind) : (finish e s).plen = s.plen := rfl
@[simp] theorem finish_done (e : Option ErrKind) : (finish e s).done = true := rfl
@[simp] theorem finish_errcode (e : Option ErrKind) : (finish e s).errcode = e := rfl
@[simp] theorem finish_pcw (e : Option ErrKind) : (finish e s).pcw = none := rfl
@[simp] theorem finish_carrier (e : Option ErrKind) : (finish e s).carrier = s.carrier := rfl
@[simp] theorem finish_payload (e : Option ErrKind) : (finish e s).payload = s.payload := rfl
@[simp] theorem finish_resetIn (e : Option ErrKind) : (finish e s).resetIn = s.resetIn := rfl
@[simp] theorem finish_faultRec (e : Option ErrKind) : (finish e s).faultRec = s.faultRec := rfl
@[simp] theorem finish_refusalRec (e : Option ErrKind) : (finish e s).refusalRec = s.refusalRec := rfl
@[simp] theorem finish_script (e : Option ErrKind) : (finish e s).script = s.script := rfl
@[simp] theorem finish_hpc (e : Option ErrKind) : (finish e s).hpc = s.hpc := rfl
@[simp] theorem finish_reads (e : Option ErrKind) : (finish e s).reads = s.reads := rfl
@[simp] theorem finish_delays (e : Option ErrKind) : (finish e s).delays = s.delays := rfl
@[simp] theorem finish_wait (e : Option ErrKind) : (finish e s).wait = 0 := rfl
@[simp] theorem finish_draws (e : Option ErrKind) : (finish e s).draws = s.draws := rfl

/-! ### goTo -/

@[simp] theorem goTo_cfg (k : Nat) : (goTo k s).cfg = s.cfg := rfl
@[simp] theorem goTo_value (k : Nat) : (goTo k s).value = s.value := rfl
@[simp] theorem goTo_offset (k : Nat) : (goTo k s).offset = s.offset := rfl
@[simp] theorem goTo_size (k : Nat) : (goTo k s).size = s.size := rfl
@[simp] theorem goTo_clen (k : Nat) : (goTo k s).clen = s.clen := rfl
@[simp] theorem goTo_hdr (k : Nat) : (goTo k s).hdr = s.hdr := rfl
@[simp] theorem goTo_plen (k : Nat) : (goTo k s).plen = s.plen := rfl
@[simp] theorem goTo_done (k : Nat) : (goTo k s).done = s.done := rfl
@[simp] theorem goTo_errcode (k : Nat) : (goTo k s).errcode = s.errcode := rfl
@[simp] theorem goTo_pcw (k : Nat) : (goTo k s).pcw = s.pcw := rfl
@[simp] theorem goTo_carrier (k : Nat) : (goTo k s).carrier = s.carrier := rfl
@[simp] theorem goTo_payload (k : Nat) : (goTo k s).payload = s.payload := rfl
@[simp] theorem goTo_resetIn (k : Nat) : (goTo k s).resetIn = s.resetIn := rfl
@[simp] theorem goTo_faultRec (k : Nat) : (goTo k s).faultRec = s.faultRec := rfl
@[simp] theorem goTo_refusalRec (k : Nat) : (goTo k s).refusalRec = s.refusalRec := rfl
@[simp] theorem goTo_script (k : Nat) : (goTo k s).script = s.script := rfl
@[simp] theorem goTo_hpc (k : Nat) : (goTo k s).hpc = k := rfl
@[simp] theorem goTo_reads (k : Nat) : (goTo k s).reads = s.reads := rfl
@[simp] theorem goTo_delays (k : Nat) : (goTo k s).delays = s.delays := rfl
@[simp] theorem goTo_wait (k : Nat) : (goTo k s).wait = s.wait - 1 := rfl
@[simp] theorem goTo_draws (k : Nat) : (goTo k s).draws = s.draws := rfl

/-! ### record -/

@[simp] theorem record_cfg (r : ReadResult) : (record r s).cfg = s.cfg := rfl
@[simp] theorem record_value (r : ReadResult) : (record r s).value = s.value := rfl
@[simp] theorem record_offset (r : ReadResult) : (record r s).offset = s.offset := rfl
@[simp] theorem record_size (r : ReadResult) : (record r s).size = s.size := rfl
@[simp] theorem record_clen (r : ReadResult) : (record r s).clen = s.clen := rfl
@[simp] theorem record_hdr (r : ReadResult) : (record r s).hdr = s.hdr := rfl
@[simp] theorem record_plen (r : ReadResult) : (record r s).plen = s.plen := rfl
@[simp] theorem record_done (r : ReadResult) : (record r s).done = s.done := rfl
@[simp] theorem record_errcode (r : ReadResult) : (record r s).errcode = s.errcode := rfl
@[simp] theorem record_pcw (r : ReadResult) : (record r s).pcw = s.pcw := rfl
@[simp] theorem record_carrier (r : ReadResult) : (record r s).carrier = s.carrier := rfl
@[simp] theorem record_payload (r : ReadResult) : (record r s).payload = s.payload := rfl
@[simp] theorem record_resetIn (r : ReadResult) : (record r s).resetIn = s.resetIn := rfl
@[simp] theorem record_faultRec (r : ReadResult) : (record r s).faultRec = s.faultRec := rfl
@[simp] theorem record_refusalRec (r : ReadResult) : (record r s).refusalRec = s.refusalRec := rfl
@[simp] theorem record_script (r : ReadResult) : (record r s).script = s.script := rfl
@[simp] theorem record_hpc (r : ReadResult) : (record r s).hpc = s.hpc := rfl
@[simp] theorem record_reads (r : ReadResult) : (record r s).reads = r :: s.reads := rfl
@[simp] theorem record_delays (r : ReadResult) : (record r s).delays = s.delays := rfl
@[simp] theorem record_wait (r : ReadResult) : (record r s).wait = s.wait := rfl
@[simp] theorem record_draws (r : ReadResult) : (record r s).draws = s.draws := rfl

/-! ### recordFreeWord -/

@[simp] theorem recordFreeWord_cfg : (recordFreeWord s).cfg = s.cfg := rfl
@[simp] theorem recordFreeWord_value : (recordFreeWord s).value = s.value := rfl
@[simp] theorem recordFreeWord_offset : (recordFreeWord s).offset = s.offset := rfl
@[simp] theorem recordFreeWord_size : (recordFreeWord s).size = s.size := rfl
@[simp] theorem recordFreeWord_clen : (recordFreeWord s).clen = s.clen := rfl
@[simp] theorem recordFreeWord_hdr : (recordFreeWord s).hdr = s.hdr := rfl
@[simp] theorem recordFreeWord_plen : (recordFreeWord s).plen = s.plen := rfl
@[simp] theorem recordFreeWord_done : (recordFreeWord s).done = s.done := rfl
@[simp] theorem recordFreeWord_errcode : (recordFreeWord s).errcode = s.errcode := rfl
@[simp] theorem recordFreeWord_pcw : (recordFreeWord s).pcw = s.pcw := rfl
@[simp] theorem recordFreeWord_carrier : (recordFreeWord s).carrier = s.carrier := rfl
@[simp] theorem recordFreeWord_payload : (recordFreeWord s).payload = s.payload := rfl
@[simp] theorem recordFreeWord_resetIn : (recordFreeWord s).resetIn = s.resetIn := rfl
@[simp] theorem recordFreeWord_faultRec : (recordFreeWord s).faultRec = s.faultRec := rfl
@[simp] theorem recordFreeWord_refusalRec : (recordFreeWord s).refusalRec = s.refusalRec := rfl
@[simp] theorem recordFreeWord_script : (recordFreeWord s).script = s.script := rfl
@[simp] theorem recordFreeWord_hpc : (recordFreeWord s).hpc = s.hpc := rfl
@[simp] theorem recordFreeWord_reads : (recordFreeWord s).reads = .word (Config.freeWord s.draws) :: s.reads := rfl
@[simp] theorem recordFreeWord_delays : (recordFreeWord s).delays = s.delays := rfl
@[simp] theorem recordFreeWord_wait : (recordFreeWord s).wait = s.wait := rfl
@[simp] theorem recordFreeWord_draws : (recordFreeWord s).draws = s.draws + 1 := rfl

/-! ### recordFreeByte -/

@[simp] theorem recordFreeByte_cfg : (recordFreeByte s).cfg = s.cfg := rfl
@[simp] theorem recordFreeByte_value : (recordFreeByte s).value = s.value := rfl
@[simp] theorem recordFreeByte_offset : (recordFreeByte s).offset = s.offset := rfl
@[simp] theorem recordFreeByte_size : (recordFreeByte s).size = s.size := rfl
@[simp] theorem recordFreeByte_clen : (recordFreeByte s).clen = s.clen := rfl
@[simp] theorem recordFreeByte_hdr : (recordFreeByte s).hdr = s.hdr := rfl
@[simp] theorem recordFreeByte_plen : (recordFreeByte s).plen = s.plen := rfl
@[simp] theorem recordFreeByte_done : (recordFreeByte s).done = s.done := rfl
@[simp] theorem recordFreeByte_errcode : (recordFreeByte s).errcode = s.errcode := rfl
@[simp] theorem recordFreeByte_pcw : (recordFreeByte s).pcw = s.pcw := rfl
@[simp] theorem recordFreeByte_carrier : (recordFreeByte s).carrier = s.carrier := rfl
@[simp] theorem recordFreeByte_payload : (recordFreeByte s).payload = s.payload := rfl
@[simp] theorem recordFreeByte_resetIn : (recordFreeByte s).resetIn = s.resetIn := rfl
@[simp] theorem recordFreeByte_faultRec : (recordFreeByte s).faultRec = s.faultRec := rfl
@[simp] theorem recordFreeByte_refusalRec : (recordFreeByte s).refusalRec = s.refusalRec := rfl
@[simp] theorem recordFreeByte_script : (recordFreeByte s).script = s.script := rfl
@[simp] theorem recordFreeByte_hpc : (recordFreeByte s).hpc = s.hpc := rfl
@[simp] theorem recordFreeByte_reads : (recordFreeByte s).reads = .byte (Config.freeByte s.draws) :: s.reads := rfl
@[simp] theorem recordFreeByte_delays : (recordFreeByte s).delays = s.delays := rfl
@[simp] theorem recordFreeByte_wait : (recordFreeByte s).wait = s.wait := rfl
@[simp] theorem recordFreeByte_draws : (recordFreeByte s).draws = s.draws + 1 := rfl

/-! ### assertReset -/

@[simp] theorem assertReset_cfg : (assertReset s).cfg = s.cfg := rfl
@[simp] theorem assertReset_value : (assertReset s).value = s.value := rfl
@[simp] theorem assertReset_offset : (assertReset s).offset = s.offset := rfl
@[simp] theorem assertReset_size : (assertReset s).size = s.size := rfl
@[simp] theorem assertReset_clen : (assertReset s).clen = s.clen := rfl
@[simp] theorem assertReset_hdr : (assertReset s).hdr = s.hdr := rfl
@[simp] theorem assertReset_plen : (assertReset s).plen = s.plen := rfl
@[simp] theorem assertReset_done : (assertReset s).done = s.done := rfl
@[simp] theorem assertReset_errcode : (assertReset s).errcode = s.errcode := rfl
@[simp] theorem assertReset_pcw : (assertReset s).pcw = s.pcw := rfl
@[simp] theorem assertReset_carrier : (assertReset s).carrier = s.carrier := rfl
@[simp] theorem assertReset_payload : (assertReset s).payload = s.payload := rfl
@[simp] theorem assertReset_resetIn : (assertReset s).resetIn = true := rfl
@[simp] theorem assertReset_faultRec : (assertReset s).faultRec = s.faultRec := rfl
@[simp] theorem assertReset_refusalRec : (assertReset s).refusalRec = s.refusalRec := rfl
@[simp] theorem assertReset_script : (assertReset s).script = s.script := rfl
@[simp] theorem assertReset_hpc : (assertReset s).hpc = s.hpc + 1 := rfl
@[simp] theorem assertReset_reads : (assertReset s).reads = s.reads := rfl
@[simp] theorem assertReset_delays : (assertReset s).delays = s.delays := rfl
@[simp] theorem assertReset_wait : (assertReset s).wait = s.wait - 1 := rfl
@[simp] theorem assertReset_draws : (assertReset s).draws = s.draws := rfl

/-! ### clearBlock -/

@[simp] theorem clearBlock_cfg : (clearBlock s).cfg = s.cfg := rfl
@[simp] theorem clearBlock_value : (clearBlock s).value = 0 := rfl
@[simp] theorem clearBlock_offset : (clearBlock s).offset = 0 := rfl
@[simp] theorem clearBlock_size : (clearBlock s).size = 0 := rfl
@[simp] theorem clearBlock_clen : (clearBlock s).clen = 0 := rfl
@[simp] theorem clearBlock_hdr : (clearBlock s).hdr = 0 := rfl
@[simp] theorem clearBlock_plen : (clearBlock s).plen = 0 := rfl
@[simp] theorem clearBlock_done : (clearBlock s).done = false := rfl
@[simp] theorem clearBlock_errcode : (clearBlock s).errcode = none := rfl
@[simp] theorem clearBlock_pcw : (clearBlock s).pcw = none := rfl
@[simp] theorem clearBlock_carrier : (clearBlock s).carrier = [] := rfl
@[simp] theorem clearBlock_payload : (clearBlock s).payload = [] := rfl
@[simp] theorem clearBlock_resetIn : (clearBlock s).resetIn = false := rfl
@[simp] theorem clearBlock_faultRec : (clearBlock s).faultRec = s.faultRec := rfl
@[simp] theorem clearBlock_refusalRec : (clearBlock s).refusalRec = s.refusalRec := rfl
@[simp] theorem clearBlock_script : (clearBlock s).script = s.script := rfl
@[simp] theorem clearBlock_hpc : (clearBlock s).hpc = s.hpc := rfl
@[simp] theorem clearBlock_reads : (clearBlock s).reads = s.reads := rfl
@[simp] theorem clearBlock_delays : (clearBlock s).delays = s.delays := rfl
@[simp] theorem clearBlock_wait : (clearBlock s).wait = 0 := rfl
@[simp] theorem clearBlock_draws : (clearBlock s).draws = s.draws := rfl

/-! ### setMemory -/

@[simp] theorem setMemory_cfg (sp : Space) (m : Memory) : (setMemory s sp m).cfg = s.cfg := by
  cases sp <;> rfl
@[simp] theorem setMemory_value (sp : Space) (m : Memory) : (setMemory s sp m).value = s.value := by
  cases sp <;> rfl
@[simp] theorem setMemory_offset (sp : Space) (m : Memory) : (setMemory s sp m).offset = s.offset := by
  cases sp <;> rfl
@[simp] theorem setMemory_size (sp : Space) (m : Memory) : (setMemory s sp m).size = s.size := by
  cases sp <;> rfl
@[simp] theorem setMemory_clen (sp : Space) (m : Memory) : (setMemory s sp m).clen = s.clen := by
  cases sp <;> rfl
@[simp] theorem setMemory_hdr (sp : Space) (m : Memory) : (setMemory s sp m).hdr = s.hdr := by
  cases sp <;> rfl
@[simp] theorem setMemory_plen (sp : Space) (m : Memory) : (setMemory s sp m).plen = s.plen := by
  cases sp <;> rfl
@[simp] theorem setMemory_done (sp : Space) (m : Memory) : (setMemory s sp m).done = s.done := by
  cases sp <;> rfl
@[simp] theorem setMemory_errcode (sp : Space) (m : Memory) : (setMemory s sp m).errcode = s.errcode := by
  cases sp <;> rfl
@[simp] theorem setMemory_pcw (sp : Space) (m : Memory) : (setMemory s sp m).pcw = s.pcw := by
  cases sp <;> rfl
@[simp] theorem setMemory_resetIn (sp : Space) (m : Memory) : (setMemory s sp m).resetIn = s.resetIn := by
  cases sp <;> rfl
@[simp] theorem setMemory_faultRec (sp : Space) (m : Memory) : (setMemory s sp m).faultRec = s.faultRec := by
  cases sp <;> rfl
@[simp] theorem setMemory_refusalRec (sp : Space) (m : Memory) : (setMemory s sp m).refusalRec = s.refusalRec := by
  cases sp <;> rfl
@[simp] theorem setMemory_script (sp : Space) (m : Memory) : (setMemory s sp m).script = s.script := by
  cases sp <;> rfl
@[simp] theorem setMemory_hpc (sp : Space) (m : Memory) : (setMemory s sp m).hpc = s.hpc := by
  cases sp <;> rfl
@[simp] theorem setMemory_reads (sp : Space) (m : Memory) : (setMemory s sp m).reads = s.reads := by
  cases sp <;> rfl
@[simp] theorem setMemory_delays (sp : Space) (m : Memory) : (setMemory s sp m).delays = s.delays := by
  cases sp <;> rfl
@[simp] theorem setMemory_wait (sp : Space) (m : Memory) : (setMemory s sp m).wait = s.wait := by
  cases sp <;> rfl
@[simp] theorem setMemory_draws (sp : Space) (m : Memory) : (setMemory s sp m).draws = s.draws := by
  cases sp <;> rfl
@[simp] theorem setMemory_carrier_carrier (m : Memory) : (setMemory s .carrier m).carrier = m := rfl
@[simp] theorem setMemory_carrier_payload (m : Memory) : (setMemory s .carrier m).payload = s.payload := rfl
@[simp] theorem setMemory_payload_payload (m : Memory) : (setMemory s .payload m).payload = m := rfl
@[simp] theorem setMemory_payload_carrier (m : Memory) : (setMemory s .payload m).carrier = s.carrier := rfl
@[simp] theorem memoryOf_carrier : memoryOf s .carrier = s.carrier := rfl
@[simp] theorem memoryOf_payload : memoryOf s .payload = s.payload := rfl
@[simp] theorem memoryOf_setMemory_same (sp : Space) (m : Memory) : memoryOf (setMemory s sp m) sp = m := by
  cases sp <;> rfl

/-! ### acceptCommand -/

@[simp] theorem acceptCommand_cfg (w : Word) : (acceptCommand w s).cfg = s.cfg := by
  unfold acceptCommand; split <;> rfl
@[simp] theorem acceptCommand_value (w : Word) : (acceptCommand w s).value = s.value := by
  unfold acceptCommand; split <;> rfl
@[simp] theorem acceptCommand_offset (w : Word) : (acceptCommand w s).offset = s.offset := by
  unfold acceptCommand; split <;> rfl
@[simp] theorem acceptCommand_size (w : Word) : (acceptCommand w s).size = s.size := by
  unfold acceptCommand; split <;> rfl
@[simp] theorem acceptCommand_clen (w : Word) : (acceptCommand w s).clen = s.clen := by
  unfold acceptCommand; split <;> rfl
@[simp] theorem acceptCommand_hdr (w : Word) : (acceptCommand w s).hdr = s.hdr := by
  unfold acceptCommand; split <;> rfl
@[simp] theorem acceptCommand_plen (w : Word) : (acceptCommand w s).plen = s.plen := by
  unfold acceptCommand; split <;> rfl
@[simp] theorem acceptCommand_done (w : Word) : (acceptCommand w s).done = s.done := by
  unfold acceptCommand; split <;> rfl
@[simp] theorem acceptCommand_errcode (w : Word) : (acceptCommand w s).errcode = s.errcode := by
  unfold acceptCommand; split <;> rfl
@[simp] theorem acceptCommand_pcw (w : Word) : (acceptCommand w s).pcw = some w := by
  unfold acceptCommand; split <;> rfl
@[simp] theorem acceptCommand_carrier (w : Word) : (acceptCommand w s).carrier = s.carrier := by
  unfold acceptCommand; split <;> rfl
@[simp] theorem acceptCommand_payload (w : Word) : (acceptCommand w s).payload = s.payload := by
  unfold acceptCommand; split <;> rfl
@[simp] theorem acceptCommand_resetIn (w : Word) : (acceptCommand w s).resetIn = s.resetIn := by
  unfold acceptCommand; split <;> rfl
@[simp] theorem acceptCommand_faultRec (w : Word) : (acceptCommand w s).faultRec = s.faultRec := by
  unfold acceptCommand; split <;> rfl
@[simp] theorem acceptCommand_refusalRec (w : Word) : (acceptCommand w s).refusalRec = s.refusalRec := by
  unfold acceptCommand; split <;> rfl
@[simp] theorem acceptCommand_script (w : Word) : (acceptCommand w s).script = s.script := by
  unfold acceptCommand; split <;> rfl
@[simp] theorem acceptCommand_hpc (w : Word) : (acceptCommand w s).hpc = s.hpc := by
  unfold acceptCommand; split <;> rfl
@[simp] theorem acceptCommand_reads (w : Word) : (acceptCommand w s).reads = s.reads := by
  unfold acceptCommand; split <;> rfl

end Sys2Proof.Machine
end

