-- ==== Sys2Proof/Laws/Lanes.lean ====
section
/-! SUPPORT. The laws of pairs and lanes (R47, R51, R72, R74). -/

namespace Sys2Proof.Machine

theorem carried_setCarried (b : Byte) (x : Pair) : carried (setCarried b x) = x := by
  revert b x; decide

theorem setCarried_high (b : Byte) (x : Pair) :
    (setCarried b x).extractLsb' 2 6 = b.extractLsb' 2 6 := by
  revert b x; decide

theorem setCarried_carried (b : Byte) : setCarried b (carried b) = b := by
  revert b; decide

/-- R72: the pairs at window positions 32 and above are 0. -/
theorem pair_wide (v : Word) {i : Nat} (h : 32 ≤ i) : pair v i = 0 := by
  ext j hj
  simp [pair, BitVec.getLsbD_of_ge v (2 * i + j) (by omega)]

/-- R72: a pair as a base-4 digit of the value. -/
theorem pair_toNat (v : Word) (i : Nat) : (pair v i).toNat = v.toNat / 4 ^ i % 4 := by
  simp [pair, BitVec.extractLsb'_toNat, Nat.shiftRight_eq_div_pow, pow_mul]

@[simp] theorem pair_zero (i : Nat) : pair 0#64 i = 0#2 := by
  apply BitVec.eq_of_toNat_eq; simp [pair_toNat]

theorem pair_or (v w : Word) (i : Nat) : pair (v ||| w) i = pair v i ||| pair w i := by
  ext j hj; simp [pair]

theorem getLsbD_placed (x : Pair) (i k : Nat) :
    (placed x i).getLsbD k = (decide (k < 64) && decide (2 * i ≤ k) && x.getLsbD (k - 2 * i)) := by
  simp only [placed, BitVec.getLsbD_shiftLeft, BitVec.getLsbD_setWidth]
  by_cases h1 : k < 64 <;> by_cases h2 : k < 2 * i
  · have : ¬ 2 * i ≤ k := by omega
    simp [h2, this]
  · have h3 : 2 * i ≤ k := by omega
    have h4 : k - 2 * i < 64 := by omega
    simp [h1, h2, h3, h4]
  · simp [h1]
  · simp [h1]

theorem pair_placed_same (x : Pair) {i : Nat} (h : i < 32) : pair (placed x i) i = x := by
  ext j hj
  have h1 : 2 * i + j < 64 := by omega
  simp only [pair, BitVec.getElem_extractLsb', getLsbD_placed]
  simp [h1, hj]

theorem pair_placed_other (x : Pair) {i k : Nat} (h : i ≠ k) : pair (placed x i) k = 0 := by
  ext j hj
  simp only [pair, BitVec.getElem_extractLsb', getLsbD_placed]
  by_cases h1 : 2 * i ≤ 2 * k + j
  · have h2 : 2 ≤ 2 * k + j - 2 * i := by omega
    simp [BitVec.getLsbD_of_ge x _ h2]
  · simp [h1]

theorem pair_placed (x : Pair) {i : Nat} (h : i < 32) (k : Nat) :
    pair (placed x i) k = if k = i then x else 0 := by
  by_cases hk : k = i
  · subst hk; simp [pair_placed_same x h]
  · simp [hk, pair_placed_other x (Ne.symm hk)]

/-- A value is known by its 32 pairs. -/
theorem word_ext_pairs {v w : Word} (h : ∀ i < 32, pair v i = pair w i) : v = w := by
  apply BitVec.eq_of_getLsbD_eq
  intro k hk
  have e := congrArg (fun x : Pair => x.getLsbD (k % 2)) (h (k / 2) (by omega))
  have hd : 2 * (k / 2) + k % 2 = k := Nat.div_add_mod k 2
  have hm : k % 2 < 2 := Nat.mod_lt _ (by omega)
  simpa [pair, hd, hm] using e

/-- Two values with the same pairs below `n` agree modulo `4^n`. -/
theorem mod_eq_of_pairs {v w : Word} {n : Nat} (h : ∀ i < n, pair v i = pair w i) :
    v.toNat % 4 ^ n = w.toNat % 4 ^ n := by
  induction n with
  | zero => simp [Nat.mod_one]
  | succ n ih =>
    have h1 := ih fun i hi => h i (by omega)
    have h2 := congrArg BitVec.toNat (h n (by omega))
    simp only [pair_toNat] at h2
    rw [pow_succ, Nat.mod_mul, Nat.mod_mul, h1, h2]

/-- Two values that agree modulo `4^n` have the same pairs below `n`. -/
theorem pairs_of_mod_eq {v w : Word} {n i : Nat} (h : v.toNat % 4 ^ n = w.toNat % 4 ^ n) (hi : i < n) :
    pair v i = pair w i := by
  have key : ∀ x : Nat, x / 4 ^ i % 4 = x % 4 ^ n / 4 ^ i % 4 := by
    intro x
    obtain ⟨k, rfl⟩ := Nat.exists_eq_add_of_lt hi
    have hp : 4 ^ (i + k + 1) = 4 ^ i * (4 * 4 ^ k) := by ring
    rw [hp, Nat.mod_mul_right_div_self, Nat.mod_mul_right_mod]
  apply BitVec.eq_of_toNat_eq
  rw [pair_toNat, pair_toNat, key, h, ← key]

end Sys2Proof.Machine
end

