-- ==== Sys2Proof/Laws/Memory.lean ====
section
/-! SUPPORT. The laws of the memories: a read after a write, the canonical form, the draws. -/

namespace Sys2Proof.Machine

/-! ### Read after write -/

theorem memGet_memSet (m : Memory) (a a' : Nat) (b : Byte) :
    memGet (memSet m a b) a' = if a = a' then some b else memGet m a' := by
  induction m with
  | nil => simp [memSet, memGet]
  | cons e m ih =>
    obtain ⟨c, x⟩ := e
    unfold memSet
    split
    · simp [memGet]
    · split
      · next h => subst h; by_cases h' : a = a' <;> simp [memGet, h']
      · next h1 h2 =>
        simp only [memGet, ih]
        by_cases h' : c = a'
        · have : a ≠ a' := by omega
          simp [h', this]
        · simp [h']

@[simp] theorem memGet_memSet_same (m : Memory) (a : Nat) (b : Byte) :
    memGet (memSet m a b) a = some b := by simp [memGet_memSet]

theorem memGet_memSet_other (m : Memory) {a a' : Nat} (b : Byte) (h : a ≠ a') :
    memGet (memSet m a b) a' = memGet m a' := by simp [memGet_memSet, h]

/-! ### The canonical form -/

theorem mem_memSet {m : Memory} {a : Nat} {b : Byte} {e : Host.Cell} (h : e ∈ memSet m a b) :
    e = (a, b) ∨ e ∈ m := by
  induction m with
  | nil => simpa [memSet] using h
  | cons c m ih =>
    unfold memSet at h
    split at h
    · simpa using h
    · split at h
      · rcases List.mem_cons.1 h with h | h
        · exact .inl h
        · exact .inr (List.mem_cons_of_mem _ h)
      · rcases List.mem_cons.1 h with h | h
        · exact .inr (h ▸ List.mem_cons_self)
        · exact (ih h).imp_right (List.mem_cons_of_mem _)

theorem memSet_wf {m : Memory} (a : Nat) (b : Byte) (h : Memory.wf m) : Memory.wf (memSet m a b) := by
  induction m with
  | nil => simp [Memory.wf, memSet]
  | cons e m ih =>
    obtain ⟨c, x⟩ := e
    obtain ⟨hc, hm⟩ := List.pairwise_cons.1 h
    unfold memSet
    split
    · next hlt =>
      refine List.pairwise_cons.2 ⟨fun y hy => ?_, h⟩
      rcases List.mem_cons.1 hy with rfl | hy
      · exact hlt
      · exact lt_trans hlt (hc y hy)
    · split
      · next heq => subst heq; exact List.pairwise_cons.2 ⟨hc, hm⟩
      · refine List.pairwise_cons.2 ⟨fun y hy => ?_, ih hm⟩
        rcases mem_memSet hy with rfl | hy
        · show c < a; omega
        · exact hc y hy

/-- A write inside a memory keeps its canonical form and its bounds. -/
theorem memSet_ok {p : Params} {sp : Space} {m : Memory} {a : Nat} (b : Byte)
    (h : memOk p sp m) (ha : a < spaceSize p sp) : memOk p sp (memSet m a b) :=
  ⟨memSet_wf a b h.1, fun c hc => by
    rcases mem_memSet hc with rfl | hc
    · exact ha
    · exact h.2 c hc⟩

theorem memOk_nil (p : Params) (sp : Space) : memOk p sp [] := ⟨List.Pairwise.nil, by simp⟩

/-! ### The draws -/

theorem drawBytes_wf (d start n : Nat) : Memory.wf (drawBytes d start n) := by
  refine List.pairwise_map.2 (List.Pairwise.imp ?_ List.pairwise_lt_range)
  intro a b h
  show start + a < start + b
  omega

theorem drawBytes_ok {p : Params} {sp : Space} (d : Nat) {start n : Nat}
    (h : n = 0 ∨ start + n ≤ spaceSize p sp) : memOk p sp (drawBytes d start n) := by
  refine ⟨drawBytes_wf d start n, fun c hc => ?_⟩
  obtain ⟨i, hi, rfl⟩ := List.mem_map.1 hc
  have := List.mem_range.1 hi
  show start + i < _
  omega

theorem memGet_append (m m' : Memory) (a : Nat) :
    memGet (m ++ m') a = (memGet m a).or (memGet m' a) := by
  induction m with
  | nil => simp [memGet]
  | cons e m ih => by_cases h : e.1 = a <;> simp [memGet, h, ih]

/-- R123: a drawn byte is there and holds its draw; every other byte of the memory is unmarked. -/
theorem memGet_drawBytes (d start n a : Nat) : memGet (drawBytes d start n) a =
    if start ≤ a ∧ a < start + n then some (Config.freeByte (d + (a - start))) else none := by
  induction n with
  | zero =>
    have : ¬ (start ≤ a ∧ a < start + 0) := by omega
    simp [drawBytes, memGet]
  | succ n ih =>
    have e : drawBytes d start (n + 1) =
        drawBytes d start n ++ [(start + n, Config.freeByte (d + n))] := by
      simp [drawBytes, List.range_succ]
    rw [e, memGet_append, ih]
    by_cases h1 : start ≤ a ∧ a < start + n
    · have h2 : start ≤ a ∧ a < start + (n + 1) := by omega
      simp [h1, h2]
    · by_cases h2 : start + n = a
      · subst h2; simp [memGet]
      · have h3 : ¬ (start ≤ a ∧ a < start + (n + 1)) := by omega
        rw [if_neg h1, if_neg h3]
        simp [memGet, h2]

/-! ### One byte read, one byte written -/

theorem readByte_ok_iff {p : Params} {sp : Space} {m : Memory} {a : Nat} {b : Byte} :
    readByte p sp m a = .ok b ↔ a < spaceSize p sp ∧ memGet m a = some b := by
  unfold readByte
  split
  · next h => split <;> simp_all
  · next h => simp [h]

theorem writeByte_ok_iff {p : Params} {sp : Space} {m m' : Memory} {a : Nat} {b : Byte} :
    writeByte p sp m a b = .ok m' ↔ a < spaceSize p sp ∧ m' = memSet m a b := by
  unfold writeByte
  split
  · next h => simp [h, eq_comm]
  · next h => simp [h]

theorem readByte_unwritten {p : Params} {sp : Space} {m : Memory} {a : Nat}
    (ha : a < spaceSize p sp) (h : memGet m a = none) :
    readByte p sp m a = .error (.uninitRead sp a) := by
  simp [readByte, ha, h]

/-- A written byte reads as its value. -/
theorem memGet_of_written {m : Memory} {start n j : Nat} (h : written m start n) (hj : j < n) :
    memGet m (start + j) = some (byteAt m (start + j)) := by
  obtain ⟨b, hb⟩ := Option.isSome_iff_exists.1 (h j hj)
  simp [byteAt, hb]

end Sys2Proof.Machine
end

