-- ==== Sys2Proof/Laws/Windows.lean ====
section
/-! SUPPORT. What the window operations do (R71, R73, R74, R89, R92): one lemma says when each succeeds and what it
leaves, one when it stops and with what. -/

namespace Sys2Proof.Machine

/-! ### The window check -/

theorem windowCheck_none_iff {p : Params} {o s L : Nat} :
    windowCheck p o s L = none ↔ o + s ≤ idxMax p ∧ o + s ≤ L := by
  unfold windowCheck
  split
  · simp; omega
  · split <;> simp <;> omega

theorem windowCheck_overflow_iff {p : Params} {o s L : Nat} :
    windowCheck p o s L = some .overflow ↔ idxMax p < o + s := by
  unfold windowCheck
  split
  · simp; omega
  · split <;> simp <;> omega

theorem windowCheck_outOfBounds_iff {p : Params} {o s L : Nat} :
    windowCheck p o s L = some .outOfBounds ↔ o + s ≤ idxMax p ∧ L < o + s := by
  unfold windowCheck
  split
  · simp; omega
  · split <;> simp <;> omega

theorem windowCheck_some {p : Params} {o s L : Nat} {e : ErrKind} (h : windowCheck p o s L = some e) :
    e = .overflow ∨ e = .outOfBounds := by
  unfold windowCheck at h
  split at h
  · simp_all
  · split at h <;> simp_all

/-- With legal parameters a window inside the carrier buffer never overflows (R12). -/
theorem windowCheck_inside {p : Params} {o s L : Nat} (hp : p.Legal) (hL : L ≤ p.carrierSize)
    (h : o + s ≤ L) : windowCheck p o s L = none := by
  have := hp.1
  exact windowCheck_none_iff.2 ⟨by unfold idxMax; omega, h⟩

/-! ### ImprintWindow -/

/-- What the imprint loop leaves: the bytes from position `i` hold their pairs, every other byte is as before. -/
theorem imprintBytes_get {p : Params} {v : Word} {o n i : Nat} {m m' : Memory}
    (h : imprintBytes p v o n i m = .ok m') (a : Nat) :
    memGet m' a = if o + i ≤ a ∧ a < o + i + n then
      (memGet m a).map (fun b => setCarried b (pair v (a - o))) else memGet m a := by
  induction n generalizing i m with
  | zero =>
    simp only [imprintBytes, Except.ok.injEq] at h
    rw [if_neg (by omega), h]
  | succ n ih =>
    unfold imprintBytes at h
    split at h
    · cases h
    · next b hb =>
      split at h
      · cases h
      · next m1 hm1 =>
        obtain ⟨-, hb⟩ := readByte_ok_iff.1 hb
        obtain ⟨-, rfl⟩ := writeByte_ok_iff.1 hm1
        rw [ih h]
        by_cases ha : o + i = a
        · subst ha
          have h1 : ¬ (o + (i + 1) ≤ o + i ∧ o + i < o + (i + 1) + n) := by omega
          have h2 : o + i ≤ o + i ∧ o + i < o + i + (n + 1) := by omega
          rw [if_neg h1, if_pos h2]
          simp [hb]
        · rw [memGet_memSet_other _ _ ha]
          by_cases h1 : o + (i + 1) ≤ a ∧ a < o + (i + 1) + n
          · have h2 : o + i ≤ a ∧ a < o + i + (n + 1) := by omega
            rw [if_pos h1, if_pos h2]
          · have h2 : ¬ (o + i ≤ a ∧ a < o + i + (n + 1)) := by omega
            rw [if_neg h1, if_neg h2]

/-- The imprint loop reads every byte it passes. -/
theorem imprintBytes_reads {p : Params} {v : Word} {o n i : Nat} {m m' : Memory}
    (h : imprintBytes p v o n i m = .ok m') {j : Nat} (h1 : i ≤ j) (h2 : j < i + n) :
    o + j < p.carrierSize ∧ (memGet m (o + j)).isSome = true := by
  induction n generalizing i m with
  | zero => omega
  | succ n ih =>
    unfold imprintBytes at h
    split at h
    · cases h
    · next b hb =>
      split at h
      · cases h
      · next m1 hm1 =>
        obtain ⟨hs, hb⟩ := readByte_ok_iff.1 hb
        obtain ⟨-, rfl⟩ := writeByte_ok_iff.1 hm1
        by_cases hj : i = j
        · subst hj; exact ⟨hs, by simp [hb]⟩
        · have := ih h (by omega) (by omega)
          rwa [memGet_memSet_other _ _ (by omega)] at this

/-- The imprint loop succeeds on written bytes inside the memory. -/
theorem imprintBytes_ok {p : Params} (v : Word) {o n i : Nat} {m : Memory}
    (hs : o + i + n ≤ p.carrierSize) (hw : written m (o + i) n) :
    ∃ m', imprintBytes p v o n i m = .ok m' := by
  induction n generalizing i m with
  | zero => exact ⟨m, rfl⟩
  | succ n ih =>
    obtain ⟨b, hb⟩ := Option.isSome_iff_exists.1 (hw 0 (by omega))
    have hr : readByte p .carrier m (o + i) = .ok b :=
      readByte_ok_iff.2 ⟨show o + i < p.carrierSize by omega, hb⟩
    have hwr : writeByte p .carrier m (o + i) (setCarried b (pair v i)) =
        .ok (memSet m (o + i) (setCarried b (pair v i))) :=
      writeByte_ok_iff.2 ⟨show o + i < p.carrierSize by omega, rfl⟩
    simp only [imprintBytes, hr, hwr]
    refine ih (by omega) fun j hj => ?_
    rw [memGet_memSet_other _ _ (by omega)]
    have := hw (j + 1) (by omega)
    rwa [show o + i + (j + 1) = o + (i + 1) + j by omega] at this

/-- The imprint loop faults at the first byte that was never written (R58). -/
theorem imprintBytes_fault {p : Params} (v : Word) {o n i j : Nat} {m : Memory}
    (hs : o + i + n ≤ p.carrierSize) (hj : j < n) (hw : written m (o + i) j)
    (hn : memGet m (o + i + j) = none) :
    imprintBytes p v o n i m = .error (.uninitRead .carrier (o + i + j)) := by
  induction n generalizing i j m with
  | zero => omega
  | succ n ih =>
    cases j with
    | zero =>
      have hr := readByte_unwritten (sp := .carrier) (show o + i < spaceSize p .carrier by
        show o + i < p.carrierSize; omega) hn
      simp only [imprintBytes]
      rw [hr]
      rfl
    | succ j =>
      obtain ⟨b, hb⟩ := Option.isSome_iff_exists.1 (hw 0 (by omega))
      have hr : readByte p .carrier m (o + i) = .ok b :=
        readByte_ok_iff.2 ⟨show o + i < p.carrierSize by omega, hb⟩
      have hwr : writeByte p .carrier m (o + i) (setCarried b (pair v i)) =
          .ok (memSet m (o + i) (setCarried b (pair v i))) :=
        writeByte_ok_iff.2 ⟨show o + i < p.carrierSize by omega, rfl⟩
      simp only [imprintBytes, hr, hwr]
      rw [ih (j := j) (by omega) (by omega)]
      · rw [show o + (i + 1) + j = o + i + (j + 1) by omega]
      · intro k hk
        rw [memGet_memSet_other _ _ (by omega)]
        have := hw (k + 1) (by omega)
        rwa [show o + i + (k + 1) = o + (i + 1) + k by omega] at this
      · rw [memGet_memSet_other _ _ (by omega)]
        rwa [show o + i + (j + 1) = o + (i + 1) + j by omega] at hn

theorem imprintBytes_memOk {p : Params} {v : Word} {o n i : Nat} {m m' : Memory}
    (h : imprintBytes p v o n i m = .ok m') (hm : memOk p .carrier m) : memOk p .carrier m' := by
  induction n generalizing i m with
  | zero => simp only [imprintBytes, Except.ok.injEq] at h; exact h ▸ hm
  | succ n ih =>
    unfold imprintBytes at h
    split at h
    · cases h
    · split at h
      · cases h
      · next m1 hm1 =>
        obtain ⟨hs, rfl⟩ := writeByte_ok_iff.1 hm1
        exact ih h (memSet_ok _ hm hs)

theorem imprintWindow_ok_iff {p : Params} {v : Word} {o s L : Nat} {m m' : Memory} :
    imprintWindow p v o s L m = .ok m' ↔
      windowCheck p o s L = none ∧ imprintBytes p v o s 0 m = .ok m' := by
  unfold imprintWindow
  cases windowCheck p o s L with
  | some e => simp
  | none => cases imprintBytes p v o s 0 m <;> simp

theorem imprintWindow_raise_iff {p : Params} {v : Word} {o s L : Nat} {m : Memory} {e : ErrKind} :
    imprintWindow p v o s L m = .error (.raise e) ↔ windowCheck p o s L = some e := by
  unfold imprintWindow
  cases windowCheck p o s L with
  | some e => simp
  | none => cases imprintBytes p v o s 0 m <;> simp

/-- What a successful `ImprintWindow` leaves. -/
theorem imprintWindow_get {p : Params} {v : Word} {o s L : Nat} {m m' : Memory}
    (h : imprintWindow p v o s L m = .ok m') (a : Nat) :
    memGet m' a = if o ≤ a ∧ a < o + s then
      (memGet m a).map (fun b => setCarried b (pair v (a - o))) else memGet m a := by
  simpa using imprintBytes_get (imprintWindow_ok_iff.1 h).2 a

theorem imprintWindow_get_inside {p : Params} {v : Word} {o s L a : Nat} {m m' : Memory}
    (h : imprintWindow p v o s L m = .ok m') (ha : o ≤ a ∧ a < o + s) :
    memGet m' a = (memGet m a).map (fun b => setCarried b (pair v (a - o))) := by
  rw [imprintWindow_get h, if_pos ha]

theorem imprintWindow_get_outside {p : Params} {v : Word} {o s L a : Nat} {m m' : Memory}
    (h : imprintWindow p v o s L m = .ok m') (ha : ¬ (o ≤ a ∧ a < o + s)) :
    memGet m' a = memGet m a := by
  rw [imprintWindow_get h, if_neg ha]

/-- R51, R76: `ImprintWindow` keeps bits 7:2 of every byte, and every mark. -/
theorem imprintWindow_high {p : Params} {v : Word} {o s L : Nat} {m m' : Memory}
    (h : imprintWindow p v o s L m = .ok m') (a : Nat) :
    (memGet m' a).map (fun b => b.extractLsb' 2 6) = (memGet m a).map (fun b => b.extractLsb' 2 6) := by
  rw [imprintWindow_get h]
  split
  · cases memGet m a <;> simp [setCarried_high]
  · rfl

theorem imprintWindow_ok {p : Params} (v : Word) {o s L : Nat} {m : Memory} (hp : p.Legal)
    (hL : L ≤ p.carrierSize) (h : o + s ≤ L) (hw : written m o s) :
    ∃ m', imprintWindow p v o s L m = .ok m' := by
  obtain ⟨m', h'⟩ := imprintBytes_ok v (i := 0) (show o + 0 + s ≤ p.carrierSize by omega) hw
  exact ⟨m', imprintWindow_ok_iff.2 ⟨windowCheck_inside hp hL h, h'⟩⟩

/-- R58: `ImprintWindow` faults at the first byte of its window that nothing has written. -/
theorem imprintWindow_fault {p : Params} (v : Word) {o s L j : Nat} {m : Memory} (hp : p.Legal)
    (hL : L ≤ p.carrierSize) (h : o + s ≤ L) (hj : j < s) (hw : written m o j) (hn : memGet m (o + j) = none) :
    imprintWindow p v o s L m = .error (.fault (.uninitRead .carrier (o + j))) := by
  have hb := imprintBytes_fault (p := p) v (i := 0) (show o + 0 + s ≤ p.carrierSize by omega) hj hw hn
  simp only [imprintWindow, windowCheck_inside hp hL h, hb, Nat.add_zero]

theorem imprintWindow_memOk {p : Params} {v : Word} {o s L : Nat} {m m' : Memory}
    (h : imprintWindow p v o s L m = .ok m') (hm : memOk p .carrier m) : memOk p .carrier m' :=
  imprintBytes_memOk (imprintWindow_ok_iff.1 h).2 hm

/-! ### ExtractWindow -/

/-- What the extract loop assembles: the pairs from position `i` are those the bytes carry. -/
theorem extractBytes_pairs {p : Params} {m : Memory} {o n i : Nat} {r v : Word}
    (h : extractBytes p m o n i r = .ok v) (hn : i + n ≤ 32) (k : Nat) :
    pair v k = if i ≤ k ∧ k < i + n then pair r k ||| carried (byteAt m (o + k)) else pair r k := by
  induction n generalizing i r with
  | zero =>
    simp only [extractBytes, Except.ok.injEq] at h
    rw [if_neg (by omega), h]
  | succ n ih =>
    unfold extractBytes at h
    split at h
    · cases h
    · next b hb =>
      obtain ⟨-, hb⟩ := readByte_ok_iff.1 hb
      rw [ih h (by omega), pair_or, pair_placed _ (by omega : i < 32)]
      by_cases hk : k = i
      · subst hk
        have h1 : ¬ (k + 1 ≤ k ∧ k < k + 1 + n) := by omega
        have h2 : k ≤ k ∧ k < k + (n + 1) := by omega
        rw [if_neg h1, if_pos h2]
        simp [byteAt, hb]
      · rw [if_neg hk]
        by_cases h1 : i + 1 ≤ k ∧ k < i + 1 + n
        · have h2 : i ≤ k ∧ k < i + (n + 1) := by omega
          rw [if_pos h1, if_pos h2]
          simp
        · have h2 : ¬ (i ≤ k ∧ k < i + (n + 1)) := by omega
          rw [if_neg h1, if_neg h2]
          simp

/-- The extract loop reads every byte it passes. -/
theorem extractBytes_reads {p : Params} {m : Memory} {o n i : Nat} {r v : Word}
    (h : extractBytes p m o n i r = .ok v) {j : Nat} (h1 : i ≤ j) (h2 : j < i + n) :
    o + j < p.carrierSize ∧ (memGet m (o + j)).isSome = true := by
  induction n generalizing i r with
  | zero => omega
  | succ n ih =>
    unfold extractBytes at h
    split at h
    · cases h
    · next b hb =>
      obtain ⟨hs, hb⟩ := readByte_ok_iff.1 hb
      by_cases hj : i = j
      · subst hj; exact ⟨hs, by simp [hb]⟩
      · exact ih h (by omega) (by omega)

/-- The extract loop succeeds on written bytes inside the memory. -/
theorem extractBytes_ok {p : Params} {m : Memory} {o n i : Nat} (r : Word)
    (hs : o + i + n ≤ p.carrierSize) (hw : written m (o + i) n) :
    ∃ v, extractBytes p m o n i r = .ok v := by
  induction n generalizing i r with
  | zero => exact ⟨r, rfl⟩
  | succ n ih =>
    obtain ⟨b, hb⟩ := Option.isSome_iff_exists.1 (hw 0 (by omega))
    have hr : readByte p .carrier m (o + i) = .ok b :=
      readByte_ok_iff.2 ⟨show o + i < p.carrierSize by omega, hb⟩
    simp only [extractBytes, hr]
    refine ih _ (by omega) fun j hj => ?_
    have := hw (j + 1) (by omega)
    rwa [show o + i + (j + 1) = o + (i + 1) + j by omega] at this

/-- The extract loop faults at the first byte that was never written (R58). -/
theorem extractBytes_fault {p : Params} {m : Memory} {o n i j : Nat} (r : Word)
    (hs : o + i + n ≤ p.carrierSize) (hj : j < n) (hw : written m (o + i) j)
    (hn : memGet m (o + i + j) = none) :
    extractBytes p m o n i r = .error (.uninitRead .carrier (o + i + j)) := by
  induction n generalizing i j r with
  | zero => omega
  | succ n ih =>
    cases j with
    | zero =>
      have hr := readByte_unwritten (sp := .carrier) (show o + i < spaceSize p .carrier by
        show o + i < p.carrierSize; omega) hn
      simp only [extractBytes]
      rw [hr]
      rfl
    | succ j =>
      obtain ⟨b, hb⟩ := Option.isSome_iff_exists.1 (hw 0 (by omega))
      have hr : readByte p .carrier m (o + i) = .ok b :=
        readByte_ok_iff.2 ⟨show o + i < p.carrierSize by omega, hb⟩
      simp only [extractBytes, hr]
      rw [ih _ (j := j) (by omega) (by omega)]
      · rw [show o + (i + 1) + j = o + i + (j + 1) by omega]
      · intro k hk
        have := hw (k + 1) (by omega)
        rwa [show o + i + (k + 1) = o + (i + 1) + k by omega] at this
      · rwa [show o + i + (j + 1) = o + (i + 1) + j by omega] at hn

theorem extractWindow_ok_iff {p : Params} {o s L : Nat} {m : Memory} {v : Word} :
    extractWindow p o s L m = .ok v ↔
      windowCheck p o s L = none ∧ s ≤ 32 ∧ extractBytes p m o s 0 0 = .ok v := by
  unfold extractWindow
  cases windowCheck p o s L with
  | some e => simp
  | none =>
    by_cases hs : s > extractMax
    · have : ¬ s ≤ 32 := by unfold extractMax at hs; omega
      simp [hs, this]
    · have : s ≤ 32 := by unfold extractMax at hs; omega
      simp only [hs, this, true_and, if_false]
      cases extractBytes p m o s 0 0 <;> simp

theorem extractWindow_raise_iff {p : Params} {o s L : Nat} {m : Memory} {e : ErrKind} :
    extractWindow p o s L m = .error (.raise e) ↔
      windowCheck p o s L = some e ∨
        (windowCheck p o s L = none ∧ 32 < s ∧ e = .sizeLimitExceeded) := by
  unfold extractWindow
  cases windowCheck p o s L with
  | some e' => simp
  | none =>
    by_cases hs : s > extractMax
    · have : 32 < s := hs
      simp [hs, this, eq_comm]
    · have : ¬ 32 < s := hs
      simp only [hs, this, if_false]
      cases extractBytes p m o s 0 0 <;> simp

/-- What a successful `ExtractWindow` returns, pair by pair. -/
theorem extractWindow_pairs {p : Params} {o s L : Nat} {m : Memory} {v : Word}
    (h : extractWindow p o s L m = .ok v) (k : Nat) :
    pair v k = if k < s then carried (byteAt m (o + k)) else 0 := by
  obtain ⟨-, hs, hb⟩ := extractWindow_ok_iff.1 h
  have := extractBytes_pairs hb (by omega) k
  simpa using this

theorem extractWindow_written {p : Params} {o s L : Nat} {m : Memory} {v : Word}
    (h : extractWindow p o s L m = .ok v) : written m o s := by
  obtain ⟨-, -, hb⟩ := extractWindow_ok_iff.1 h
  exact fun j hj => (extractBytes_reads hb (Nat.zero_le j) (by omega)).2

theorem extractWindow_ok {p : Params} {o s L : Nat} {m : Memory} (hp : p.Legal)
    (hL : L ≤ p.carrierSize) (h : o + s ≤ L) (hs : s ≤ 32) (hw : written m o s) :
    ∃ v, extractWindow p o s L m = .ok v := by
  obtain ⟨v, h'⟩ := extractBytes_ok 0 (i := 0) (show o + 0 + s ≤ p.carrierSize by omega) hw
  exact ⟨v, extractWindow_ok_iff.2 ⟨windowCheck_inside hp hL h, hs, h'⟩⟩

/-- R58: `ExtractWindow` faults at the first byte of its window that nothing has written. -/
theorem extractWindow_fault {p : Params} {o s L j : Nat} {m : Memory} (hp : p.Legal) (hL : L ≤ p.carrierSize)
    (h : o + s ≤ L) (hs : s ≤ 32) (hj : j < s) (hw : written m o j) (hn : memGet m (o + j) = none) :
    extractWindow p o s L m = .error (.fault (.uninitRead .carrier (o + j))) := by
  have hb := extractBytes_fault (p := p) 0 (i := 0) (show o + 0 + s ≤ p.carrierSize by omega) hj hw hn
  simp only [extractWindow, windowCheck_inside hp hL h, extractMax, if_neg (Nat.not_lt.2 hs), hb, Nat.add_zero]

/-- An extracted value fits its window: pairs at and above its size are 0 (R74, R99). -/
theorem extractWindow_lt {p : Params} {o s L : Nat} {m : Memory} {v : Word}
    (h : extractWindow p o s L m = .ok v) : v.toNat < 4 ^ s := by
  obtain ⟨-, hs, -⟩ := extractWindow_ok_iff.1 h
  have hp := extractWindow_pairs h
  have step : ∀ d, d ≤ 32 - s → v.toNat < 4 ^ (32 - d) := by
    intro d
    induction d with
    | zero => intro _; have := v.isLt; norm_num; omega
    | succ d ih =>
      intro hd
      have h1 := ih (by omega)
      have h2 := congrArg BitVec.toNat (hp (32 - (d + 1)))
      rw [if_neg (by omega), pair_toNat] at h2
      have h3 : 4 ^ (32 - d) = 4 ^ (32 - (d + 1)) * 4 := by
        rw [← pow_succ]; congr 1; omega
      have h4 : v.toNat / 4 ^ (32 - (d + 1)) < 4 := by
        rw [Nat.div_lt_iff_lt_mul (by positivity), Nat.mul_comm, ← h3]; exact h1
      have h5 : v.toNat / 4 ^ (32 - (d + 1)) = 0 := by
        rw [Nat.mod_eq_of_lt h4] at h2; simpa using h2
      exact (Nat.div_eq_zero_iff_lt (by positivity)).1 h5
  simpa [show 32 - (32 - s) = s by omega] using step (32 - s) le_rfl

/-! ### The framer's loops -/

/-- What HIDE's loop leaves where it ends with no error: each window from number `k` holds its payload byte. -/
theorem hideLoop_get {p : Params} {H L : Nat} {pl m m' : Memory} {n k : Nat} {e : Option ErrKind}
    (h : hideLoop p H L pl n k m = .ok (m', e)) (a : Nat) :
    (¬ (byteWindow H k ≤ a ∧ a < byteWindow H (k + n)) → memGet m' a = memGet m a) ∧
    (e = none → ∀ q < n, ∀ i < 4, a = byteWindow H (k + q) + i →
      memGet m' a = (memGet m a).map
        (fun b => setCarried b (pair ((byteAt pl (k + q)).setWidth 64) i))) := by
  induction n generalizing k m with
  | zero =>
    simp only [hideLoop, Except.ok.injEq, Prod.mk.injEq] at h
    obtain ⟨rfl, -⟩ := h
    exact ⟨fun _ => rfl, fun _ q hq => absurd hq (by omega)⟩
  | succ n ih =>
    unfold hideLoop at h
    split at h
    · cases h
    · next b hb =>
      obtain ⟨-, hb⟩ := readByte_ok_iff.1 hb
      have hbv : byteAt pl k = b := by simp [byteAt, hb]
      split at h
      · simp only [Except.ok.injEq, Prod.mk.injEq] at h
        obtain ⟨rfl, rfl⟩ := h
        exact ⟨fun _ => rfl, fun h => by cases h⟩
      · cases h
      · next m1 hm1 =>
        have hout := imprintWindow_get_outside hm1 (a := a)
        have hin := imprintWindow_get_inside hm1 (a := a)
        obtain ⟨i1, i2⟩ := ih h
        simp only [byteWindow, byteWin, lenWin] at *
        refine ⟨fun ha => ?_, fun he q hq i hi ha => ?_⟩
        · rw [i1 (by omega), hout (by omega)]
        · cases q with
          | zero =>
            rw [i1 (by omega), hin (by omega), show a - (H + 32 + 4 * k) = i by omega, Nat.add_zero, hbv]
          | succ q =>
            rw [i2 he q (by omega) i hi (by omega), hout (by omega),
              show k + 1 + q = k + (q + 1) by omega]

/-- HIDE's loop over `q` payload bytes whose windows fit, all written: it goes on from payload byte `k + q`, and no
byte outside those windows has changed. -/
theorem hideLoop_run {p : Params} {H L : Nat} {pl m : Memory} {n k : Nat} (q : Nat) (hp : p.Legal)
    (hL : L ≤ p.carrierSize) (hq : q ≤ n) (hin : q = 0 ∨ byteWindow H (k + q) ≤ L) (hpl : written pl k q)
    (hw : written m (byteWindow H k) (4 * q)) :
    ∃ m', hideLoop p H L pl n k m = hideLoop p H L pl (n - q) (k + q) m' ∧
      ∀ a, ¬ (byteWindow H k ≤ a ∧ a < byteWindow H (k + q)) → memGet m' a = memGet m a := by
  induction q generalizing n k m with
  | zero => exact ⟨m, rfl, fun _ _ => rfl⟩
  | succ q ih =>
    obtain ⟨n, rfl⟩ : ∃ n', n = n' + 1 := ⟨n - 1, by omega⟩
    have hin : byteWindow H (k + (q + 1)) ≤ L := by omega
    simp only [byteWindow, byteWin, lenWin] at *
    obtain ⟨b, hb⟩ := Option.isSome_iff_exists.1 (hpl 0 (by omega))
    have hps := hp.2
    have hr : readByte p .payload pl k = .ok b :=
      readByte_ok_iff.2 ⟨show k < p.payloadSize by omega, hb⟩
    obtain ⟨m1, hm1⟩ := imprintWindow_ok (b.setWidth 64) hp hL
      (show H + 32 + 4 * k + 4 ≤ L by omega) (fun j hj => hw j (by omega))
    obtain ⟨m', h1, h2⟩ := ih (n := n) (k := k + 1) (m := m1) (by omega) (by omega)
      (fun j hj => by
        have := hpl (j + 1) (by omega)
        rwa [show k + (j + 1) = k + 1 + j by omega] at this)
      (fun j hj => by
        rw [imprintWindow_get_outside hm1 (by omega)]
        have := hw (j + 4) (by omega)
        rwa [show H + 32 + 4 * k + (j + 4) = H + 32 + 4 * (k + 1) + j by omega] at this)
    refine ⟨m', ?_, fun a ha => ?_⟩
    · simp only [hideLoop, hr, byteWindow, byteWin, lenWin, hm1]
      rw [h1, show k + 1 + q = k + (q + 1) by omega, show n + 1 - (q + 1) = n - q by omega]
    · rw [h2 a (by omega), imprintWindow_get_outside hm1 (by omega)]

/-- HIDE's loop ends with no error on written bytes, when its windows lie inside the carrier buffer (R91). -/
theorem hideLoop_ok {p : Params} {H L : Nat} {pl m : Memory} {n k : Nat} (hp : p.Legal)
    (hL : L ≤ p.carrierSize) (hin : n = 0 ∨ byteWindow H (k + n) ≤ L) (hpl : written pl k n)
    (hw : written m (byteWindow H k) (4 * n)) :
    ∃ m', hideLoop p H L pl n k m = .ok (m', none) := by
  obtain ⟨m', h, -⟩ := hideLoop_run n hp hL le_rfl hin hpl hw
  rw [Nat.sub_self] at h
  exact ⟨m', h⟩

/-- HIDE's loop never ends with an error when its windows lie inside the carrier buffer (R91). -/
theorem hideLoop_no_error {p : Params} {H L : Nat} {pl m m' : Memory} {n k : Nat} {e : Option ErrKind}
    (hp : p.Legal) (hL : L ≤ p.carrierSize) (hin : n = 0 ∨ byteWindow H (k + n) ≤ L)
    (h : hideLoop p H L pl n k m = .ok (m', e)) : e = none := by
  induction n generalizing k m with
  | zero =>
    simp only [hideLoop, Except.ok.injEq, Prod.mk.injEq] at h
    exact h.2.symm
  | succ n ih =>
    unfold hideLoop at h
    split at h
    · cases h
    · split at h
      · next e' he' =>
        have := imprintWindow_raise_iff.1 he'
        simp only [byteWindow, byteWin, lenWin] at *
        rw [windowCheck_inside hp hL (by omega)] at this
        cases this
      · cases h
      · refine ih ?_ h
        simp only [byteWindow, byteWin, lenWin] at *
        omega

theorem hideLoop_memOk {p : Params} {H L : Nat} {pl m m' : Memory} {n k : Nat} {e : Option ErrKind}
    (h : hideLoop p H L pl n k m = .ok (m', e)) (hm : memOk p .carrier m) : memOk p .carrier m' := by
  induction n generalizing k m with
  | zero =>
    simp only [hideLoop, Except.ok.injEq, Prod.mk.injEq] at h
    exact h.1 ▸ hm
  | succ n ih =>
    unfold hideLoop at h
    split at h
    · cases h
    · split at h
      · simp only [Except.ok.injEq, Prod.mk.injEq] at h
        exact h.1 ▸ hm
      · cases h
      · next m1 hm1 => exact ih h (imprintWindow_memOk hm1 hm)

/-- HIDE's loop keeps bits 7:2 of every byte, and every mark. -/
theorem hideLoop_high {p : Params} {H L : Nat} {pl m m' : Memory} {n k : Nat} {e : Option ErrKind}
    (h : hideLoop p H L pl n k m = .ok (m', e)) (a : Nat) :
    (memGet m' a).map (fun b => b.extractLsb' 2 6) = (memGet m a).map (fun b => b.extractLsb' 2 6) := by
  induction n generalizing k m with
  | zero =>
    simp only [hideLoop, Except.ok.injEq, Prod.mk.injEq] at h
    rw [h.1]
  | succ n ih =>
    unfold hideLoop at h
    split at h
    · cases h
    · split at h
      · simp only [Except.ok.injEq, Prod.mk.injEq] at h
        rw [h.1]
      · cases h
      · next m1 hm1 =>
        rw [ih h, imprintWindow_high hm1]

/-- What RECOVER's loop leaves: the payload bytes below the first failing window are written, the others are as
before; it ends with no error only when all `n` are written. -/
theorem recoverLoop_get {p : Params} {H L : Nat} {c pl pl' : Memory} {n k : Nat} {e : Option ErrKind}
    (h : recoverLoop p H L c n k pl = .ok (pl', e)) :
    ∃ q ≤ n, (e = none → q = n) ∧
      (∀ x, (x < k ∨ k + q ≤ x) → memGet pl' x = memGet pl x) ∧
      (∀ j < q, k + j < p.payloadSize ∧ byteWindow H (k + j) + 4 ≤ L ∧
        ∃ b : Word, extractWindow p (byteWindow H (k + j)) byteWin L c = .ok b ∧
          memGet pl' (k + j) = some (b.setWidth 8)) ∧
      (∀ e', e = some e' → q < n ∧
        extractWindow p (byteWindow H (k + q)) byteWin L c = .error (.raise e')) := by
  induction n generalizing k pl with
  | zero =>
    simp only [recoverLoop, Except.ok.injEq, Prod.mk.injEq] at h
    obtain ⟨rfl, rfl⟩ := h
    exact ⟨0, le_rfl, fun _ => rfl, fun _ _ => rfl, fun j hj => absurd hj (by omega), fun _ h => by cases h⟩
  | succ n ih =>
    unfold recoverLoop at h
    split at h
    · next e' he' =>
      simp only [Except.ok.injEq, Prod.mk.injEq] at h
      obtain ⟨rfl, rfl⟩ := h
      refine ⟨0, by omega, fun h => (by cases h), fun _ _ => rfl, fun j hj => absurd hj (by omega), fun e'' h => ?_⟩
      cases h
      exact ⟨by omega, he'⟩
    · cases h
    · next b hb =>
      split at h
      · cases h
      · next pl1 hpl1 =>
        obtain ⟨hs, rfl⟩ := writeByte_ok_iff.1 hpl1
        obtain ⟨q, hq, h1, h2, h3, h4⟩ := ih h
        refine ⟨q + 1, by omega, fun he => by rw [h1 he], fun x hx => ?_, fun j hj => ?_, fun e' he' => ?_⟩
        · rw [h2 x (by omega), memGet_memSet_other _ _ (by omega)]
        · cases j with
          | zero =>
            refine ⟨hs, (windowCheck_none_iff.1 (extractWindow_ok_iff.1 hb).1).2, b, hb, ?_⟩
            show memGet pl' k = _
            rw [h2 k (by omega), memGet_memSet_same]
          | succ j =>
            have := h3 j (by omega)
            rwa [show k + 1 + j = k + (j + 1) by omega] at this
        · have := h4 e' he'
          rw [show k + 1 + q = k + (q + 1) by omega] at this
          exact ⟨by omega, this.2⟩

/-- RECOVER's loop over `q` windows that fit, written: it goes on from window `k + q`. -/
theorem recoverLoop_run {p : Params} {H L : Nat} {c pl : Memory} {n k : Nat} (q : Nat) (hp : p.Legal)
    (hL : L ≤ p.carrierSize) (hq : q ≤ n) (hin : q = 0 ∨ byteWindow H (k + q) ≤ L)
    (hw : written c (byteWindow H k) (4 * q)) :
    ∃ pl', recoverLoop p H L c n k pl = recoverLoop p H L c (n - q) (k + q) pl' ∧
      (∀ x, (x < k ∨ k + q ≤ x) → memGet pl' x = memGet pl x) ∧
      (∀ j < q, ∃ b : Word, extractWindow p (byteWindow H (k + j)) byteWin L c = .ok b ∧
        memGet pl' (k + j) = some (b.setWidth 8)) := by
  induction q generalizing n k pl with
  | zero => exact ⟨pl, rfl, fun _ _ => rfl, fun j hj => absurd hj (by omega)⟩
  | succ q ih =>
    have hps := hp.2
    have hin : byteWindow H (k + (q + 1)) ≤ L := by omega
    obtain ⟨n, rfl⟩ : ∃ n', n = n' + 1 := ⟨n - 1, by omega⟩
    obtain ⟨b, hb⟩ : ∃ v, extractWindow p (byteWindow H k) byteWin L c = .ok v :=
      extractWindow_ok hp hL (by simp only [byteWindow, byteWin, lenWin] at *; omega)
        (by decide) (fun j hj => hw j (by simp only [byteWin] at hj; omega))
    have hwr : writeByte p .payload pl k (b.setWidth 8) = .ok (memSet pl k (b.setWidth 8)) :=
      writeByte_ok_iff.2
        ⟨show k < p.payloadSize by simp only [byteWindow, byteWin, lenWin] at hin; omega, rfl⟩
    obtain ⟨pl', h1, h2, h3⟩ := ih (n := n) (k := k + 1) (pl := memSet pl k (b.setWidth 8)) (by omega)
      (by rw [show k + 1 + q = k + (q + 1) by omega]; exact .inr hin)
      (fun j hj => by
        have := hw (j + 4) (by omega)
        simp only [byteWindow, byteWin, lenWin] at *
        rwa [show H + 32 + 4 * k + (j + 4) = H + 32 + 4 * (k + 1) + j by omega] at this)
    refine ⟨pl', ?_, fun x hx => ?_, fun j hj => ?_⟩
    · simp only [recoverLoop, hb, hwr]
      rw [h1, show k + 1 + q = k + (q + 1) by omega, show n + 1 - (q + 1) = n - q by omega]
    · rw [h2 x (by omega), memGet_memSet_other _ _ (by omega)]
    · cases j with
      | zero => exact ⟨b, hb, by show memGet pl' k = _; rw [h2 k (by omega), memGet_memSet_same]⟩
      | succ j =>
        have := h3 j (by omega)
        rwa [show k + 1 + j = k + (j + 1) by omega] at this

theorem recoverLoop_memOk {p : Params} {H L : Nat} {c pl pl' : Memory} {n k : Nat} {e : Option ErrKind}
    (h : recoverLoop p H L c n k pl = .ok (pl', e)) (hm : memOk p .payload pl) : memOk p .payload pl' := by
  induction n generalizing k pl with
  | zero =>
    simp only [recoverLoop, Except.ok.injEq, Prod.mk.injEq] at h
    exact h.1 ▸ hm
  | succ n ih =>
    unfold recoverLoop at h
    split at h
    · simp only [Except.ok.injEq, Prod.mk.injEq] at h
      exact h.1 ▸ hm
    · cases h
    · split at h
      · cases h
      · next pl1 hpl1 =>
        obtain ⟨hs, rfl⟩ := writeByte_ok_iff.1 hpl1
        exact ih h (memSet_ok _ hm hs)

end Sys2Proof.Machine
end

