-- ==== Sys2Proof/Laws/Exec.lean ====
section
/-! SUPPORT. What each command's meaning can do: one inversion lemma per command ("if it answers a next state, then one
of these cases holds"), and the lemmas that run a command forward. Proofs cite these instead of unfolding a meaning. -/

namespace Sys2Proof.Machine

variable {s t : State}

@[simp] theorem exec_imprint (s : State) : exec .imprint s = execImprint s := rfl
@[simp] theorem exec_extract (s : State) : exec .extract s = execExtract s := rfl
@[simp] theorem exec_hide (s : State) : exec .hide s = execHide s := rfl
@[simp] theorem exec_recover (s : State) : exec .recover s = execRecover s := rfl

theorem capacityOk_iff {n H L : Nat} : capacityOk n H L = true ↔ 4 * n ≤ L - (H + 32) :=
  decide_eq_true_iff

theorem capacityOk_false_iff {n H L : Nat} : capacityOk n H L = false ↔ L - (H + 32) < 4 * n := by
  rw [Bool.eq_false_iff, Ne, capacityOk_iff]; omega

/-! ### Inversion -/

theorem execImprint_next (h : execImprint s = .next t) :
    s.clen.toNat ≤ s.cfg.carrierSize ∧
    ((∃ e, windowCheck s.cfg s.offset.toNat s.size.toNat s.clen.toNat = some e ∧ t = finish (some e) s) ∨
     (∃ c, imprintWindow s.cfg s.value s.offset.toNat s.size.toNat s.clen.toNat s.carrier = .ok c ∧
        t = finish none { s with carrier := c })) := by
  unfold execImprint at h
  split at h
  · cases h
  · next hL =>
    split at h
    · cases h
    · split at h
      · next e he =>
        cases h
        exact ⟨by omega, .inl ⟨e, imprintWindow_raise_iff.1 he, rfl⟩⟩
      · cases h
      · next c hc =>
        cases h
        exact ⟨by omega, .inr ⟨c, hc, rfl⟩⟩

theorem execExtract_next (h : execExtract s = .next t) :
    s.clen.toNat ≤ s.cfg.carrierSize ∧
    ((∃ e, extractWindow s.cfg s.offset.toNat s.size.toNat s.clen.toNat s.carrier = .error (.raise e) ∧
        t = finish (some e) s) ∨
     (∃ v, extractWindow s.cfg s.offset.toNat s.size.toNat s.clen.toNat s.carrier = .ok v ∧
        t = finish none { s with value := v })) := by
  unfold execExtract at h
  split at h
  · cases h
  · next hL =>
    split at h
    · next e he => cases h; exact ⟨by omega, .inl ⟨e, he, rfl⟩⟩
    · cases h
    · next v hv => cases h; exact ⟨by omega, .inr ⟨v, hv, rfl⟩⟩

theorem execHide_next (h : execHide s = .next t) :
    s.clen.toNat ≤ s.cfg.carrierSize ∧
    ((capacityOk s.plen.toNat s.hdr.toNat s.clen.toNat = false ∧ t = finish (some .capacityExceeded) s) ∨
     (capacityOk s.plen.toNat s.hdr.toNat s.clen.toNat = true ∧
       ((∃ e, windowCheck s.cfg s.hdr.toNat lenWin s.clen.toNat = some e ∧ t = finish (some e) s) ∨
        (∃ c c' e, imprintWindow s.cfg s.plen s.hdr.toNat lenWin s.clen.toNat s.carrier = .ok c ∧
          hideLoop s.cfg s.hdr.toNat s.clen.toNat s.payload s.plen.toNat 0 c = .ok (c', e) ∧
          t = finish e { s with carrier := c' })))) := by
  unfold execHide at h
  split at h
  · cases h
  · next hL =>
    split at h
    · next hc => cases h; exact ⟨by omega, .inl ⟨hc, rfl⟩⟩
    · next hc =>
      have hc : capacityOk s.plen.toNat s.hdr.toNat s.clen.toNat = true := by simpa using hc
      split at h
      · next e he =>
        cases h
        exact ⟨by omega, .inr ⟨hc, .inl ⟨e, imprintWindow_raise_iff.1 he, rfl⟩⟩⟩
      · cases h
      · next c hcw =>
        split at h
        · cases h
        · next c' e hl => cases h; exact ⟨by omega, .inr ⟨hc, .inr ⟨c, c', some e, hcw, hl, rfl⟩⟩⟩
        · next c' hl => cases h; exact ⟨by omega, .inr ⟨hc, .inr ⟨c, c', none, hcw, hl, rfl⟩⟩⟩

theorem execRecover_next (h : execRecover s = .next t) :
    s.clen.toNat ≤ s.cfg.carrierSize ∧
    ((∃ e, extractWindow s.cfg s.hdr.toNat lenWin s.clen.toNat s.carrier = .error (.raise e) ∧
        t = finish (some e) s) ∨
     (∃ m pl e, extractWindow s.cfg s.hdr.toNat lenWin s.clen.toNat s.carrier = .ok m ∧
        recoverLoop s.cfg s.hdr.toNat s.clen.toNat s.carrier m.toNat 0 s.payload = .ok (pl, e) ∧
        t = finish e { s with payload := pl, plen := if e = none then m else s.plen })) := by
  unfold execRecover at h
  split at h
  · cases h
  · next hL =>
    split at h
    · next e he => cases h; exact ⟨by omega, .inl ⟨e, he, rfl⟩⟩
    · cases h
    · next m hm =>
      split at h
      · cases h
      · next pl e hl => cases h; exact ⟨by omega, .inr ⟨m, pl, some e, hm, hl, rfl⟩⟩
      · next pl hl => cases h; exact ⟨by omega, .inr ⟨m, pl, none, hm, hl, rfl⟩⟩

/-! ### Running a command forward -/

theorem execImprint_ok {c : Memory} (hL : s.clen.toNat ≤ s.cfg.carrierSize)
    (hw : s.size.toNat ≤ 32 ∨ s.cfg.imprintWide = .zero)
    (h : imprintWindow s.cfg s.value s.offset.toNat s.size.toNat s.clen.toNat s.carrier = .ok c) :
    execImprint s = .next (finish none { s with carrier := c }) := by
  unfold execImprint
  rw [if_neg (by omega), if_neg (by rcases hw with hw | hw <;> simp [hw]), h]
  rfl

theorem execImprint_raise {e : ErrKind} (hL : s.clen.toNat ≤ s.cfg.carrierSize)
    (hw : s.size.toNat ≤ 32 ∨ s.cfg.imprintWide = .zero)
    (h : windowCheck s.cfg s.offset.toNat s.size.toNat s.clen.toNat = some e) :
    execImprint s = .next (finish (some e) s) := by
  unfold execImprint
  rw [if_neg (by omega), if_neg (by rcases hw with hw | hw <;> simp [hw]),
    imprintWindow_raise_iff.2 h]
  rfl

theorem execExtract_ok {v : Word} (hL : s.clen.toNat ≤ s.cfg.carrierSize)
    (h : extractWindow s.cfg s.offset.toNat s.size.toNat s.clen.toNat s.carrier = .ok v) :
    execExtract s = .next (finish none { s with value := v }) := by
  unfold execExtract
  rw [if_neg (by omega), h]
  rfl

theorem execExtract_raise {e : ErrKind} (hL : s.clen.toNat ≤ s.cfg.carrierSize)
    (h : extractWindow s.cfg s.offset.toNat s.size.toNat s.clen.toNat s.carrier = .error (.raise e)) :
    execExtract s = .next (finish (some e) s) := by
  unfold execExtract
  rw [if_neg (by omega), h]
  rfl

theorem execHide_capacity (hL : s.clen.toNat ≤ s.cfg.carrierSize)
    (hc : capacityOk s.plen.toNat s.hdr.toNat s.clen.toNat = false) :
    execHide s = .next (finish (some .capacityExceeded) s) := by
  unfold execHide
  rw [if_neg (by omega), if_pos hc]
  rfl

theorem execHide_raise {e : ErrKind} (hL : s.clen.toNat ≤ s.cfg.carrierSize)
    (hc : capacityOk s.plen.toNat s.hdr.toNat s.clen.toNat = true)
    (h : windowCheck s.cfg s.hdr.toNat lenWin s.clen.toNat = some e) :
    execHide s = .next (finish (some e) s) := by
  unfold execHide
  rw [if_neg (by omega), if_neg (by simp [hc]), imprintWindow_raise_iff.2 h]
  rfl

theorem execHide_ok {c c' : Memory} (hL : s.clen.toNat ≤ s.cfg.carrierSize)
    (hc : capacityOk s.plen.toNat s.hdr.toNat s.clen.toNat = true)
    (hw : imprintWindow s.cfg s.plen s.hdr.toNat lenWin s.clen.toNat s.carrier = .ok c)
    (hl : hideLoop s.cfg s.hdr.toNat s.clen.toNat s.payload s.plen.toNat 0 c = .ok (c', none)) :
    execHide s = .next (finish none { s with carrier := c' }) := by
  unfold execHide
  rw [if_neg (by omega), if_neg (by simp [hc]), hw]
  simp only [hl]
  rfl

theorem execRecover_raise {e : ErrKind} (hL : s.clen.toNat ≤ s.cfg.carrierSize)
    (h : extractWindow s.cfg s.hdr.toNat lenWin s.clen.toNat s.carrier = .error (.raise e)) :
    execRecover s = .next (finish (some e) s) := by
  unfold execRecover
  rw [if_neg (by omega), h]
  rfl

theorem execRecover_of_loop {m : Word} {pl : Memory} {e : Option ErrKind}
    (hL : s.clen.toNat ≤ s.cfg.carrierSize)
    (h : extractWindow s.cfg s.hdr.toNat lenWin s.clen.toNat s.carrier = .ok m)
    (hl : recoverLoop s.cfg s.hdr.toNat s.clen.toNat s.carrier m.toNat 0 s.payload = .ok (pl, e)) :
    execRecover s =
      .next (finish e { s with payload := pl, plen := if e = none then m else s.plen }) := by
  unfold execRecover
  rw [if_neg (by omega), h]
  simp only [hl]
  cases e <;> rfl

/-- R46, R121: a command with CLEN above CARRIER_SIZE is refused before any check of the hardware (R110). -/
theorem exec_clenBeyondMemory (i : Instr) (h : s.cfg.carrierSize < s.clen.toNat) :
    exec i s = .refused .clenBeyondMemory := by
  cases i
  · simp only [exec_imprint, execImprint]; rw [if_pos (by omega)]
  · simp only [exec_extract, execExtract]; rw [if_pos (by omega)]
  · simp only [exec_hide, execHide]; rw [if_pos (by omega)]
  · simp only [exec_recover, execRecover]; rw [if_pos (by omega)]

/-! ### All commands at once -/

/-- Every command that answers a next state ends its command (R111, R112); besides STATUS it changes at most
VALUE, PLEN and the two memories. -/
theorem exec_next {i : Instr} (h : exec i s = .next t) :
    ∃ v q c pl e, t = finish e { s with value := v, plen := q, carrier := c, payload := pl } := by
  cases i
  · obtain ⟨-, ⟨e, -, rfl⟩ | ⟨c, -, rfl⟩⟩ := execImprint_next h
    · exact ⟨s.value, s.plen, s.carrier, s.payload, some e, rfl⟩
    · exact ⟨s.value, s.plen, c, s.payload, none, rfl⟩
  · obtain ⟨-, ⟨e, -, rfl⟩ | ⟨v, -, rfl⟩⟩ := execExtract_next h
    · exact ⟨s.value, s.plen, s.carrier, s.payload, some e, rfl⟩
    · exact ⟨v, s.plen, s.carrier, s.payload, none, rfl⟩
  · obtain ⟨-, ⟨-, rfl⟩ | ⟨-, ⟨e, -, rfl⟩ | ⟨c, c', e, -, -, rfl⟩⟩⟩ := execHide_next h
    · exact ⟨s.value, s.plen, s.carrier, s.payload, some .capacityExceeded, rfl⟩
    · exact ⟨s.value, s.plen, s.carrier, s.payload, some e, rfl⟩
    · exact ⟨s.value, s.plen, c', s.payload, e, rfl⟩
  · obtain ⟨-, ⟨e, -, rfl⟩ | ⟨m, pl, e, -, -, rfl⟩⟩ := execRecover_next h
    · exact ⟨s.value, s.plen, s.carrier, s.payload, some e, rfl⟩
    · exact ⟨s.value, _, s.carrier, pl, e, rfl⟩

/-- Every command keeps both memories in canonical form and inside their sizes. -/
theorem exec_memOk {i : Instr} (h : exec i s = .next t) (hc : memOk s.cfg .carrier s.carrier)
    (hp : memOk s.cfg .payload s.payload) :
    memOk s.cfg .carrier t.carrier ∧ memOk s.cfg .payload t.payload := by
  cases i
  · obtain ⟨-, ⟨e, -, rfl⟩ | ⟨c, hw, rfl⟩⟩ := execImprint_next h
    · exact ⟨hc, hp⟩
    · exact ⟨imprintWindow_memOk hw hc, hp⟩
  · obtain ⟨-, ⟨e, -, rfl⟩ | ⟨v, -, rfl⟩⟩ := execExtract_next h <;> exact ⟨hc, hp⟩
  · obtain ⟨-, ⟨-, rfl⟩ | ⟨-, ⟨e, -, rfl⟩ | ⟨c, c', e, hw, hl, rfl⟩⟩⟩ := execHide_next h
    · exact ⟨hc, hp⟩
    · exact ⟨hc, hp⟩
    · exact ⟨hideLoop_memOk hl (imprintWindow_memOk hw hc), hp⟩
  · obtain ⟨-, ⟨e, -, rfl⟩ | ⟨m, pl, e, -, hl, rfl⟩⟩ := execRecover_next h
    · exact ⟨hc, hp⟩
    · exact ⟨hc, recoverLoop_memOk hl hp⟩

end Sys2Proof.Machine
end

