-- ==== Sys2Proof/Laws/PerInstr.lean ====
section
/-! SUPPORT. The per-instruction family EncodedFields: a command's word has its opcode in OP and 0 in RSVD
(R59 to R62). -/

namespace Sys2Proof.Laws.EncodedFields

/-- The word of a command: OP holds its opcode, RSVD is 0. -/
def Statement (i : Instr) : Prop := opField (encode i) = opcodeOf i ∧ rsvdField (encode i) = 0#60

theorem imprint : Statement .imprint := by unfold Statement; decide
theorem extract : Statement .extract := by unfold Statement; decide
theorem hide : Statement .hide := by unfold Statement; decide
theorem recover : Statement .recover := by unfold Statement; decide

end Sys2Proof.Laws.EncodedFields
end

