-- ==== Sys2Proof/Laws/Step.lean ====
section
/-! SUPPORT. What a host operation, a reset and a step can do: one inversion lemma each. -/

namespace Sys2Proof.Machine

variable {s t : State}

/-! ### The host -/

theorem slotOf_eq_some_iff {offset bytes : Nat} {r : Slot} :
    slotOf offset bytes = some r ↔
      bytes = 8 ∧ offset % 8 = 0 ∧ offset < 128 ∧ slotNumbered (offset / 8) = r := by
  unfold slotOf
  split
  · next h => simp [h]
  · next h => simp only [reduceCtorEq, false_iff]; tauto

theorem slotOf_none {offset bytes : Nat} (h : ¬ (bytes = 8 ∧ offset % 8 = 0 ∧ offset < 128)) :
    slotOf offset bytes = none := if_neg h

/-- R18: each register's own offset names it. -/
theorem slotOf_slotOffset (r : Slot) : slotOf (slotOffset r) 8 = some r := by
  cases r <;> rfl

/-- What an accepted register write does, slot by slot. -/
theorem hostRegWrite_next {offset bytes : Nat} {v : Word} (h : hostRegWrite offset bytes v s = .next t) :
    (slotOf offset bytes = some .reserved ∧ t = advance s) ∨
    (∃ r, slotOf offset bytes = some r ∧ r ≠ .reserved ∧ busy s = false ∧ t = writeSlot (advance s) v r) := by
  unfold hostRegWrite at h
  split at h
  · cases h
  · next h1 => cases h; exact .inl ⟨h1, rfl⟩
  · next r h1 h2 =>
    split at h
    · cases h
    · next hb =>
      cases h
      exact .inr ⟨r, h2, h1, by simpa using hb, rfl⟩

/-- What a register read does: it records a value, or a draw. -/
theorem hostRegRead_next {offset bytes : Nat} (h : hostRegRead offset bytes s = .next t) :
    ∃ r, slotOf offset bytes = some r ∧
      ((busy s = true ∧ t = advance (readSlotBusy s r)) ∨
       (busy s = false ∧ t = advance (record (.word (readSlot s r)) s))) := by
  unfold hostRegRead at h
  split at h
  · cases h
  · next r h1 =>
    split at h
    · next hb => cases h; exact ⟨r, h1, .inl ⟨hb, rfl⟩⟩
    · next hb => cases h; exact ⟨r, h1, .inr ⟨by simpa using hb, rfl⟩⟩

theorem byteAccessOk_iff {p : Params} {sp : Space} {a bytes : Nat} :
    byteAccessOk p sp a bytes = true ↔ bytes = 1 ∧ a < spaceSize p sp := by
  simp [byteAccessOk]

theorem hostMemWrite_next {sp : Space} {a bytes : Nat} {b : Byte}
    (h : hostMemWrite sp a bytes b s = .next t) :
    a < spaceSize s.cfg sp ∧ busy s = false ∧
      t = advance (setMemory s sp (memSet (memoryOf s sp) a b)) := by
  unfold hostMemWrite at h
  split at h
  · cases h
  · next h1 =>
    split at h
    · cases h
    · next hb =>
      cases h
      exact ⟨(byteAccessOk_iff.1 (by simpa using h1)).2, by simpa using hb, rfl⟩

theorem hostMemRead_next {sp : Space} {a bytes : Nat} (h : hostMemRead sp a bytes s = .next t) :
    (busy s = true ∧ t = advance (recordFreeByte s)) ∨
    (busy s = false ∧ ∃ b, readByte s.cfg sp (memoryOf s sp) a = .ok b ∧
      t = advance (record (.byte b) s)) := by
  unfold hostMemRead at h
  split at h
  · cases h
  · split at h
    · next hb => cases h; exact .inl ⟨hb, rfl⟩
    · next hb =>
      split at h
      · cases h
      · next b hr => cases h; exact .inr ⟨by simpa using hb, b, hr, rfl⟩

/-- What an operation of the host can do when it is a read or a poll: nothing but the host's own state, the delay
and the draws change. -/
abbrev OnlyHostState (s t : State) : Prop :=
  ∃ k w r d, t = { s with hpc := k, wait := w, reads := r, draws := d } ∧ w ≤ s.wait

/-- Every accepted host operation is one of these: a read or a poll, a register write, a CMD write, a byte
write, the assertion of the reset input. -/
theorem execHostOp_next {op : HostOp} (h : execHostOp op s = .next t) :
    OnlyHostState s t ∨
    (busy s = false ∧ ∃ v r, r ≠ .cmd ∧ t = writeSlot (advance s) v r) ∨
    (busy s = false ∧ (∃ w, op = .regWrite 0 8 w ∧ t = acceptCommand w (advance s))) ∨
    (busy s = false ∧ ∃ sp a b, a < spaceSize s.cfg sp ∧
      t = advance (setMemory s sp (memSet (memoryOf s sp) a b))) ∨
    t = assertReset s := by
  cases op with
  | regWrite offset bytes v =>
    obtain ⟨-, rfl⟩ | ⟨r, hr, hne, hb, rfl⟩ := hostRegWrite_next h
    · exact .inl ⟨s.hpc + 1, s.wait - 1, s.reads, s.draws, rfl, by omega⟩
    · by_cases hc : r = .cmd
      · subst hc
        obtain ⟨rfl, h1, h2, h3⟩ := slotOf_eq_some_iff.1 hr
        have ho : offset = 0 := by
          have h4 : offset / 8 < 16 := by omega
          have h5 : offset / 8 = 0 := by
            generalize offset / 8 = k at h3 h4
            interval_cases k <;> first | rfl | (exact absurd h3 (by decide))
          omega
        subst ho
        exact .inr (.inr (.inl ⟨hb, v, rfl, rfl⟩))
      · exact .inr (.inl ⟨hb, v, r, hc, rfl⟩)
  | regRead offset bytes =>
    obtain ⟨r, -, ⟨-, rfl⟩ | ⟨-, rfl⟩⟩ := hostRegRead_next h
    · refine .inl ?_
      cases r
      case cmd => exact ⟨_, _, _, _, rfl, Nat.sub_le _ _⟩
      case status => exact ⟨_, _, _, _, rfl, Nat.sub_le _ _⟩
      case reserved => exact ⟨_, _, _, _, rfl, Nat.sub_le _ _⟩
      all_goals exact ⟨_, _, _, _, rfl, Nat.sub_le _ _⟩
    · exact .inl ⟨_, _, _, _, rfl, Nat.sub_le _ _⟩
  | memWrite sp a bytes b =>
    obtain ⟨ha, hb, rfl⟩ := hostMemWrite_next h
    exact .inr (.inr (.inr (.inl ⟨hb, sp, a, b, ha, rfl⟩)))
  | memRead sp a bytes =>
    obtain ⟨-, rfl⟩ | ⟨-, b, -, rfl⟩ := hostMemRead_next h
    · exact .inl ⟨_, _, _, _, rfl, Nat.sub_le _ _⟩
    · exact .inl ⟨_, _, _, _, rfl, Nat.sub_le _ _⟩
  | bnzBusy target =>
    simp only [execHostOp, hostBranchBusy] at h
    split at h <;> cases h <;> exact .inl ⟨_, _, s.reads, s.draws, rfl, Nat.sub_le _ _⟩
  | reset => cases h; exact .inr (.inr (.inr (.inr rfl)))

/-! ### Reset -/

@[simp] theorem applyReset_cfg (s : State) : (applyReset s).cfg = s.cfg := by simp [applyReset]
@[simp] theorem applyReset_value (s : State) : (applyReset s).value = 0 := by simp [applyReset]
@[simp] theorem applyReset_offset (s : State) : (applyReset s).offset = 0 := by simp [applyReset]
@[simp] theorem applyReset_size (s : State) : (applyReset s).size = 0 := by simp [applyReset]
@[simp] theorem applyReset_clen (s : State) : (applyReset s).clen = 0 := by simp [applyReset]
@[simp] theorem applyReset_hdr (s : State) : (applyReset s).hdr = 0 := by simp [applyReset]
@[simp] theorem applyReset_plen (s : State) : (applyReset s).plen = 0 := by simp [applyReset]
@[simp] theorem applyReset_done (s : State) : (applyReset s).done = false := by simp [applyReset]
@[simp] theorem applyReset_errcode (s : State) : (applyReset s).errcode = none := by simp [applyReset]
@[simp] theorem applyReset_pcw (s : State) : (applyReset s).pcw = none := by simp [applyReset]
@[simp] theorem applyReset_resetIn (s : State) : (applyReset s).resetIn = false := by simp [applyReset]
@[simp] theorem applyReset_faultRec (s : State) : (applyReset s).faultRec = s.faultRec := by simp [applyReset]
@[simp] theorem applyReset_refusalRec (s : State) : (applyReset s).refusalRec = s.refusalRec := by
  simp [applyReset]
@[simp] theorem applyReset_script (s : State) : (applyReset s).script = s.script := by simp [applyReset]
@[simp] theorem applyReset_hpc (s : State) : (applyReset s).hpc = s.hpc := by simp [applyReset]
@[simp] theorem applyReset_reads (s : State) : (applyReset s).reads = s.reads := by simp [applyReset]
@[simp] theorem applyReset_delays (s : State) : (applyReset s).delays = s.delays := by simp [applyReset]
@[simp] theorem applyReset_wait (s : State) : (applyReset s).wait = 0 := by simp [applyReset]

/-- R122, R123: after reset a byte is there exactly when it is in the abort window, and then it is its draw. -/
theorem applyReset_memGet (s : State) (sp : Space) (a : Nat) :
    memGet (memoryOf (applyReset s) sp) a =
      if (abortWindow s).1 = sp ∧ (abortWindow s).2.1 ≤ a ∧ a < (abortWindow s).2.1 + (abortWindow s).2.2 then
        some (Config.freeByte (s.draws + (a - (abortWindow s).2.1))) else none := by
  unfold applyReset
  obtain ⟨sp', start, n⟩ := abortWindow s
  have hempty : ∀ a, memGet [] a = none := fun _ => rfl
  cases sp' <;> cases sp <;>
    simp [setMemory, memoryOf, memGet_drawBytes, hempty]

/-- R122: a reset that aborts nothing which could have written a byte leaves every mark clear. -/
theorem applyReset_marksClear (h : (abortWindow s).2.2 = 0) : marksClear (applyReset s) := by
  unfold applyReset
  revert h
  obtain ⟨sp, start, n⟩ := abortWindow s
  rintro rfl
  cases sp <;> exact ⟨rfl, rfl⟩

/-- The bytes an aborted command could have written lie inside their memory. -/
theorem writeWindow_inside {i : Instr} (hp : s.cfg.Legal) :
    (writeWindow i s).2.2 = 0 ∨
      (writeWindow i s).2.1 + (writeWindow i s).2.2 ≤ spaceSize s.cfg (writeWindow i s).1 := by
  cases i <;> simp only [writeWindow]
  · split
    · simp
    · split
      · simp
      · split
        · simp
        · next h =>
          have := windowCheck_none_iff.1 (not_not.1 h)
          right; show _ ≤ s.cfg.carrierSize; simp only; omega
  · simp
  · split
    · simp
    · split
      · simp
      · next hc =>
        split
        · simp
        · next h =>
          have h1 := windowCheck_none_iff.1 (not_not.1 h)
          have h2 := capacityOk_iff.1 (by simpa using hc)
          right
          show s.hdr.toNat + (lenWin + byteWin * s.plen.toNat) ≤ s.cfg.carrierSize
          simp only [lenWin, byteWin] at *
          omega
  · split
    · simp
    · split
      · simp
      · right
        show 0 + recoverReach s ≤ s.cfg.payloadSize
        have h1 := hp.2
        have h2 : recoverReach s ≤ available s.hdr.toNat s.clen.toNat / byteWin := by
          unfold recoverReach; split
          · exact Nat.min_le_right _ _
          · exact le_rfl
        simp only [available, byteWin, lenWin] at h2
        omega

theorem abortWindow_inside (hp : s.cfg.Legal) :
    (abortWindow s).2.2 = 0 ∨
      (abortWindow s).2.1 + (abortWindow s).2.2 ≤ spaceSize s.cfg (abortWindow s).1 := by
  unfold abortWindow
  split
  · simp
  · split
    · simp
    · exact writeWindow_inside hp

theorem applyReset_memOk (hp : s.cfg.Legal) :
    memOk s.cfg .carrier (applyReset s).carrier ∧ memOk s.cfg .payload (applyReset s).payload := by
  have h := abortWindow_inside hp
  unfold applyReset
  revert h
  obtain ⟨sp, start, n⟩ := abortWindow s
  intro h
  cases sp
  · exact ⟨drawBytes_ok _ h, memOk_nil _ _⟩
  · exact ⟨memOk_nil _ _, drawBytes_ok _ h⟩

/-! ### One step -/

/-- The engine moves when a command is pending whose delay is over, or when the host has no operation left. -/
theorem nextActor_engine {w : Word} (hr : s.resetIn = false) (hp : s.pcw = some w)
    (hw : s.wait = 0 ∨ nextHostOp s = none) : nextActor s = .engine w := by
  simp only [nextActor, hr, hp, Bool.false_eq_true, if_false]
  cases ho : nextHostOp s with
  | none => rfl
  | some op => rw [ho] at hw; simp only [reduceCtorEq, or_false] at hw; simp only [hw, if_true]

/-- Nobody moves exactly when no reset is asserted, no command is pending and the host has nothing left to do. -/
theorem nextActor_idle_iff :
    nextActor s = .idle ↔ s.resetIn = false ∧ s.pcw = none ∧ nextHostOp s = none := by
  unfold nextActor
  cases s.resetIn <;> cases s.pcw <;> cases nextHostOp s <;> simp
  split <;> simp

/-- A step is a reset, the engine's step on the pending word, an operation of the host, or an idle one. -/
theorem step_next (h : step s = .next t) :
    (s.resetIn = true ∧ t = applyReset s) ∨
    (s.resetIn = false ∧ ∃ w, s.pcw = some w ∧ nextActor s = .engine w ∧ execWord w s = .next t) ∨
    (s.resetIn = false ∧ ∃ op, nextHostOp s = some op ∧ nextActor s = .host op ∧
      execHostOp op s = .next t) ∨
    (s.resetIn = false ∧ s.pcw = none ∧ nextActor s = .idle ∧ t = s) := by
  unfold step at h
  have key : nextActor s = nextActor s := rfl
  conv at key => rhs; unfold nextActor
  by_cases hr : s.resetIn = true
  · rw [if_pos hr] at key
    rw [key] at h
    cases h
    exact .inl ⟨hr, rfl⟩
  · rw [if_neg hr] at key
    have hr : s.resetIn = false := by simpa using hr
    cases hp : s.pcw <;> cases ho : nextHostOp s <;> rw [hp, ho] at key <;> dsimp only at key
    · rw [key] at h; cases h; exact .inr (.inr (.inr ⟨hr, rfl, key, rfl⟩))
    · rw [key] at h; exact .inr (.inr (.inl ⟨hr, _, rfl, key, h⟩))
    · rw [key] at h; exact .inr (.inl ⟨hr, _, rfl, key, h⟩)
    · split at key
      · rw [key] at h; exact .inr (.inl ⟨hr, _, rfl, key, h⟩)
      · rw [key] at h; exact .inr (.inr (.inl ⟨hr, _, rfl, key, h⟩))

/-- The engine's step ends the pending command (R111, R112). -/
theorem execWord_next {w : Word} (h : execWord w s = .next t) :
    ∃ v q c pl e, t = finish e { s with value := v, plen := q, carrier := c, payload := pl } := by
  unfold execWord at h
  split at h
  · exact exec_next h
  · cases h
    exact ⟨s.value, s.plen, s.carrier, s.payload, some .illegalCommand, rfl⟩

theorem execWord_memOk {w : Word} (h : execWord w s = .next t) (hc : memOk s.cfg .carrier s.carrier)
    (hp : memOk s.cfg .payload s.payload) :
    memOk s.cfg .carrier t.carrier ∧ memOk s.cfg .payload t.payload := by
  unfold execWord at h
  split at h
  · exact exec_memOk h hc hp
  · cases h; exact ⟨hc, hp⟩

end Sys2Proof.Machine
end

