-- ==== Sys2Proof/Tests/Slice0.lean ====
section
/-! SUPPORT. The model's own tests, with expected results from the spec's vectors (95_test_vectors.md, V<n>) and rules, and the
witnesses that the hypotheses of each statement can be met. -/

namespace Sys2Proof.Tests

open Sys2Proof.Machine

/-! ### Helpers -/

/-- The next state of an outcome, if it is one. -/
def nextOf (o : Host.Outcome State Fault Refusal) : Option State :=
  match o with
  | .next t => some t
  | .fault _ => none
  | .refused _ => none

/-- The fault of an outcome. -/
def faultOf (o : Host.Outcome State Fault Refusal) : Option Fault :=
  match o with
  | .next _ => none
  | .fault f => some f
  | .refused _ => none

/-- The refusal of an outcome. -/
def refusalOf (o : Host.Outcome State Fault Refusal) : Option Refusal :=
  match o with
  | .next _ => none
  | .fault _ => none
  | .refused r => some r

/-- `n` bytes `b` from address 0. -/
def fill (n : Nat) (b : Byte) : Memory := (List.range n).map (fun i => (i, b))

/-- Bytes from an address up. -/
def listed : Nat → List Byte → Memory
  | _, [] => []
  | a, b :: bs => (a, b) :: listed (a + 1) bs

/-- A state after reset with a carrier buffer of `L` bytes. -/
def idleWith (c pl : Memory) (L : Word) : State := { State.reset with carrier := c, payload := pl, clen := L }

/-- IDX_W = 32, and IMPRINT_WIDE = refuse. -/
def narrow : Params := { idxW := .w32, carrierSize := 64, payloadSize := 16, imprintWide := .refuse }

/-! ### WellFormed: what each check refuses -/

theorem test_legal_parameters : Params.Legal Params.default ∧ Params.Legal narrow := by decide
theorem test_carrier_too_large : ¬ Params.Legal { narrow with carrierSize := 2 ^ 32 - 4, payloadSize := 2 ^ 32 } := by
  decide
theorem test_payload_too_small : ¬ Params.Legal { narrow with payloadSize := 15 } := by decide
theorem test_reserved_bit_refused : ¬ CommandWordOk 0x0000000000000011#64 := by decide
theorem test_reserved_opcode_refused : ¬ CommandWordOk 0x0000000000000005#64 ∧ ¬ CommandWordOk 0#64 := by decide
theorem test_command_words_ok : ∀ i : Instr, i = .imprint ∨ i = .recover → CommandWordOk (encode i) := by
  rintro i (rfl | rfl) <;> decide

/-! ### Decode: words written out from R59 and R62 -/

theorem test_decode_imprint :
    decode 0b0000000000000000000000000000000000000000000000000000000000000001#64 = .ok .imprint := by decide
theorem test_decode_extract :
    decode 0b0000000000000000000000000000000000000000000000000000000000000010#64 = .ok .extract := by decide
theorem test_decode_hide :
    decode 0b0000000000000000000000000000000000000000000000000000000000000011#64 = .ok .hide := by decide
theorem test_decode_recover :
    decode 0b0000000000000000000000000000000000000000000000000000000000000100#64 = .ok .recover := by decide
theorem test_decodeTableWord : decodeTableWord 64 4 = some .recover ∧ decodeTableWord 8 3 = some .hide ∧
    decodeTableWord 64 0x11 = none ∧ decodeTableWord 72 1 = none := by decide

/-! ### IMPRINT -/

/-- V13's state: the window ends exactly at CLEN. -/
def sImprint : State := { idleWith (fill 8 0) [] 8 with value := 11, offset := 4, size := 4 }

/-- V16's state: a window of 33 bytes. -/
def sWide : State := { idleWith (fill 40 0xFF) [] 40 with value := 0xFFFFFFFFFFFFFFFF, size := 33 }

/-- V1, at OFFSET 4. -/
theorem test_imprint_pairs : (nextOf (exec .imprint sImprint)).map (fun t => (t.errcode, t.carrier)) =
    some (none, listed 0 [0, 0, 0, 0, 3, 2, 0, 0]) := by decide

/-- V16: pair 32 is 0, bits 7:2 stay, the bytes beyond are not touched. -/
theorem test_imprint_wide : (nextOf (exec .imprint sWide)).map (fun t => (t.errcode, t.carrier)) =
    some (none, listed 0 (List.replicate 32 0xFF ++ [0xFC] ++ List.replicate 7 0xFF)) := by decide

/-! ### EXTRACT -/

/-- V21's state. -/
def sExtract : State := { idleWith (listed 0 [0x07, 0xFE, 0x55, 0xAA]) [] 4 with size := 4 }

/-- V21. -/
theorem test_extract_value : (nextOf (exec .extract sExtract)).map (fun t => (t.errcode, t.value)) =
    some (none, 0x9B) := by decide

/-- V26: the window check comes before the size ceiling. -/
theorem test_extract_bounds_first :
    (nextOf (exec .extract { idleWith (fill 32 0) [] 32 with size := 33, value := 5 })).map
      (fun t => (t.errcode, t.value)) = some (some .outOfBounds, 5) := by decide

/-! ### HIDE -/

/-- V34's state. -/
def sHide : State := { idleWith (fill 40 0) (listed 0 [0x41]) 40 with hdr := 4, plen := 1 }

/-- V34. -/
theorem test_hide_header : (nextOf (exec .hide sHide)).map (fun t => (t.errcode, t.carrier)) =
    some (none, listed 0 ([0, 0, 0, 0, 1] ++ List.replicate 31 0 ++ [1, 0, 0, 1])) := by decide

/-- V40: 4*PLEN = 2^64 is compared exactly. -/
theorem test_hide_capacity_exact :
    (nextOf (exec .hide { idleWith (fill 40 0) [] 40 with plen := 0x4000000000000000 })).map
      (fun t => (t.errcode, t.carrier)) = some (some .capacityExceeded, fill 40 0) := by decide

/-! ### RECOVER -/

/-- V49's state. -/
def sRecover : State :=
  idleWith (listed 0 ([0xFE] ++ List.replicate 31 0xFC ++ [0xFD, 0xFC, 0xFC, 0xFD, 0xFE, 0xFF, 0xFD, 0xFC])) [] 40

/-- V47's state: the length window holds 2^64-1. -/
def sTooLong : State := { idleWith (fill 40 0x03) (fill 4 0xEE) 40 with plen := 0x77 }

/-- V49. -/
theorem test_recover_payload : (nextOf (exec .recover sRecover)).map (fun t => (t.errcode, t.plen, t.payload)) =
    some (none, 2, listed 0 [0x41, 0x1E]) := by decide

/-- V47. -/
theorem test_recover_too_long : (nextOf (exec .recover sTooLong)).map (fun t => (t.errcode, t.plen, t.payload)) =
    some (some .outOfBounds, 0x77, listed 0 [0xFF, 0xFF, 0xEE, 0xEE]) := by decide

/-! ### Steps, registers, reset -/

/-- The placed command is the one the next step runs, as the first after reset. -/
theorem test_first_command_runs :
    (nextOf (step (State.reset.withFetchWord 64 1))).map (fun t => (t.errcode, t.done, t.pcw)) =
      some (none, true, none) := by decide

/-- V53, V59: an ILLEGAL word. -/
theorem test_illegal_word : (nextOf (step (sExtract.withFetchWord 64 0xF))).map statusWord = some 0x502 := by decide

/-- V57 and the STATUS word of a failed EXTRACT (V69). -/
theorem test_status_words : statusWord State.reset = 0 ∧
    (nextOf (exec .extract { idleWith [] [] 7 with size := 8 })).map statusWord = some 0x202 := by decide

/-- V19: at IDX_W = 32 a write of OFFSET keeps bits 31:0. -/
theorem test_offset_truncated :
    (nextOf (execHostOp (.regWrite 0x18 8 0x100000007) (State.resetWith narrow))).map (·.offset) = some 7 := by decide

/-- V60: slot 9 ignores a write; V67: a 4-byte read is refused. -/
theorem test_reserved_slot_and_shape :
    nextOf (execHostOp (.regWrite 0x48 8 0x1234) State.reset) = some (advance State.reset) ∧
    refusalOf (execHostOp (.regRead 0x10 4) State.reset) = some .hostAccessShape := by decide

/-- V62. -/
theorem test_unwritten_byte_faults :
    faultOf (execHostOp (.memRead .carrier 0 1) State.reset) = some (.uninitRead .carrier 0) := by decide

/-- V68: a reset during IMPRINT of window [0, 4) marks bytes 0 to 3 and no other. -/
theorem test_aborted_imprint :
    (applyReset { sImprint with offset := 0, pcw := some 1 }).carrier.map Prod.fst = [0, 1, 2, 3] := by decide

/-- R69: the expansions of the pseudo-instructions, at the offsets of R18. -/
theorem test_pseudo_instructions :
    imprintAt 10 3 0 32 = [.regWrite 0x10 8 3, .regWrite 0x18 8 0, .regWrite 0x20 8 32, .regWrite 0 8 1, .bnzBusy 14] ∧
    extractAt 0 1 2 = [.regWrite 0x18 8 1, .regWrite 0x20 8 2, .regWrite 0 8 2, .bnzBusy 3, .regRead 0x10 8] ∧
    hideAt 0 2 = [.regWrite 0x38 8 2, .regWrite 0 8 3, .bnzBusy 2] ∧
    recoverAt 0 = [.regWrite 0 8 4, .bnzBusy 1, .regRead 0x38 8] ∧
    fillC 5 2 9 = [.memWrite .carrier 5 1 9, .memWrite .carrier 6 1 9] := by decide

/-! ### Witnesses: steps, reset, invariants -/

/-- A host with one operation left. -/
def sHost (op : HostOp) : State := { State.reset with script := [op] }

/-- A state with a pending word and a delay. -/
def sBusy (w : Word) (d : Nat) : State := { sHost (.regRead 8 8) with pcw := some w, wait := d }

theorem witness_DecodeAgreesWithEncode : ∀ i : Instr, (0x10#64 : Word) ≠ encode i := by
  intro i; cases i <;> decide

/-- One word for each clause, at the edges of the reserved range, and both ways for the engine to move: the delay over,
and a delay left when the script has ended. -/
theorem witness_IllegalWordRaisesIllegalCommand :
    (sBusy 0x10 0).resetIn = false ∧ (sBusy 0x10 0).pcw = some 0x10#64 ∧ (sBusy 0x10 0).wait = 0 ∧
    (let s : State := { sBusy 0x10 3 with hpc := 1 }
     s.resetIn = false ∧ s.pcw = some 0x10#64 ∧ s.wait ≠ 0 ∧ nextHostOp s = none) ∧
    (0x10#64 : Word).toNat / 16 ≠ 0 ∧ (0#64 : Word).toNat % 16 = 0 ∧ 5 ≤ (5#64 : Word).toNat % 16 := by decide

theorem witness_StepRunsPendingCommand :
    (sBusy 4 0).resetIn = false ∧ (sBusy 4 0).pcw = some 4#64 ∧ (sBusy 4 0).wait = 0 ∧
    nextHostOp { sBusy 4 3 with hpc := 1 } = none ∧ decode 4#64 = .ok .recover := by decide

theorem witness_StepRunsPlacedCommand : decodeTableWord 64 2 = some .extract := by decide

theorem witness_ResetWins : ({ sBusy 1 0 with resetIn := true } : State).resetIn = true := by decide

theorem witness_StepTakesTurns :
    ((sHost .reset).resetIn = false ∧ nextHostOp (sHost .reset) = some .reset ∧ (sHost .reset).pcw = none) ∧
    ((sBusy 1 1).resetIn = false ∧ nextHostOp (sBusy 1 1) = some (.regRead 8 8) ∧ (sBusy 1 1).wait ≠ 0) ∧
    (State.reset.resetIn = false ∧ nextHostOp State.reset = none ∧ State.reset.pcw = none) := by decide

/-- The bound is met: after the one host step of the delay, the engine moves. -/
theorem witness_PendingCommandIsTakenInFiniteTime :
    (sBusy 1 1).pcw = some 1#64 ∧
    (nextOf (Host.Core.run Sys2Proof.core 1 (sBusy 1 1))).map nextActor = some (.engine 1) := by
  exact ⟨rfl, by decide⟩

/-- An idle block with bytes written, an ILLEGAL word, an EXTRACT, and a command that is refused. -/
theorem witness_ResetClearsMarksAndKeepsRecords :
    (sImprint.pcw = none ∧ sImprint.carrier ≠ []) ∧
    ((sBusy 0x10 1).pcw = some 0x10#64 ∧ ∀ i : Instr, (0x10#64 : Word) ≠ encode i) ∧
    (sBusy 2 1).pcw = some (encode .extract) ∧
    (let s : State := { sBusy 4 1 with clen := 65537 }
     s.pcw = some (encode .recover) ∧ exec .recover s = .refused .clenBeyondMemory) :=
  ⟨by decide, ⟨rfl, witness_DecodeAgreesWithEncode⟩, rfl, rfl, rfl⟩

/-- The commands that raise before their first write, at the edge of each condition. -/
theorem witness_ResetClearsMarksAndKeepsRecords_raise :
    (let s : State := { sImprint with offset := 5, pcw := some 1 }
     s.pcw = some (encode .imprint) ∧ s.clen.toNat < s.offset.toNat + s.size.toNat) ∧
    (let s : State := { sImprint with offset := 0xFFFFFFFFFFFFFFFF, size := 1, pcw := some 1 }
     s.pcw = some (encode .imprint) ∧ idxMax s.cfg < s.offset.toNat + s.size.toNat) ∧
    (let s : State := { sHide with plen := 2, pcw := some 3 }
     s.pcw = some (encode .hide) ∧ s.clen.toNat - (s.hdr.toNat + 32) < 4 * s.plen.toNat) ∧
    (let s : State := { sHide with hdr := 9, plen := 0, pcw := some 3 }
     s.pcw = some (encode .hide) ∧ s.clen.toNat < s.hdr.toNat + 32) ∧
    (let s : State := { sRecover with hdr := 5, pcw := some 4 }
     s.pcw = some (encode .recover) ∧ s.clen.toNat < s.hdr.toNat + 36) ∧
    (let s : State := { sRecover with hdr := 0xFFFFFFFFFFFFFFE0, pcw := some 4 }
     s.pcw = some (encode .recover) ∧ idxMax s.cfg < s.hdr.toNat + 32) := by decide

theorem witness_AbortedImprintLeavesDraws :
    let s : State := { sImprint with pcw := some (encode .imprint) }
    s.pcw = some (encode .imprint) ∧ s.cfg.Legal ∧ clenOk s ∧ s.size.toNat ≤ 32 ∧
      s.offset.toNat + s.size.toNat ≤ s.clen.toNat := by decide

/-- The other way to meet the disjunction: a window of 33 bytes under `zero`. -/
theorem witness_AbortedImprintLeavesDraws_wide :
    let s : State := { sWide with pcw := some (encode .imprint) }
    s.cfg.Legal ∧ clenOk s ∧ ¬ s.size.toNat ≤ 32 ∧ s.cfg.imprintWide = .zero ∧
      s.offset.toNat + s.size.toNat ≤ s.clen.toNat := by decide

theorem witness_AbortedHideLeavesDraws :
    let s : State := { sHide with pcw := some (encode .hide) }
    s.pcw = some (encode .hide) ∧ s.cfg.Legal ∧ clenOk s ∧ s.hdr.toNat + 32 + 4 * s.plen.toNat ≤ s.clen.toNat := by
  decide

theorem witness_AbortedRecoverLeavesDraws :
    let s : State := { sRecover with pcw := some (encode .recover) }
    s.pcw = some (encode .recover) ∧ s.cfg.Legal ∧ clenOk s ∧ s.hdr.toNat + 32 ≤ s.clen.toNat ∧
      written s.carrier s.hdr.toNat 32 ∧
      (∀ i < 32, pair 2#64 i = carried (byteAt s.carrier (s.hdr.toNat + i))) := by decide

theorem witness_StepKeepsInvariant : StateInv sHide ∧ ∃ t, step sHide = .next t := ⟨by decide, _, rfl⟩

theorem witness_ResetMeetsInvariant : Params.Legal narrow := by decide

theorem witness_StepKeepsParameters : ∃ t, step (sHost .reset) = .next t := ⟨_, rfl⟩

theorem witness_RecordsAreNeverCleared :
    step (sHost (.memRead .carrier 0 1)) = .fault (.uninitRead .carrier 0) ∧
    step (sHost (.regRead 4 8)) = .refused .hostAccessShape ∧
    ({ sHide with faultRec := some (.uninitRead .carrier 0) } : State).faultRec ≠ none ∧
    ({ sHide with refusalRec := some .hostAccessShape } : State).refusalRec ≠ none := by
  exact ⟨rfl, rfl, by decide, by decide⟩

/-- A CMD write that the host makes, with a delay named by the state. -/
def sStart : State := { sHost (.regWrite 0 8 1) with delays := [2] }

theorem witness_BusyChangesOnlyByCommandAndReset :
    (busy sStart = false ∧ (nextOf (step sStart)).map busy = some true) ∧
    (busy (sBusy 1 0) = true ∧ (nextOf (step (sBusy 1 0))).map busy = some false) ∧
    (busy { sBusy 1 5 with resetIn := true } = true ∧
      (nextOf (step { sBusy 1 5 with resetIn := true })).map busy = some false) ∧
    nextActor (sBusy 1 0) = .engine 1 ∧ nextActor sStart = .host (.regWrite 0 8 1) := by decide

theorem witness_DoneIsSetByCompletionAndKept :
    (nextActor (sBusy 1 0) = .engine 1 ∧ ∃ t, step (sBusy 1 0) = .next t) ∧
    ({ sStart with done := true } : State).done = true ∧ sStart.resetIn = false ∧
    ∃ t, step { sStart with done := true } = .next t := by
  exact ⟨⟨by decide, _, rfl⟩, rfl, rfl, _, rfl⟩

theorem witness_ErrcodeKeptUntilCompletion :
    (∃ t, step sStart = .next t) ∧ sStart.resetIn = false ∧ nextActor sStart = .host (.regWrite 0 8 1) := by
  exact ⟨⟨_, rfl⟩, rfl, by decide⟩

/-- Each error kind stands in some state. -/
theorem witness_ErrorCodes :
    State.reset.errcode = none ∧
    ([.overflow, .outOfBounds, .capacityExceeded, .sizeLimitExceeded, .illegalCommand] : List ErrKind).map
      (fun e => errField { State.reset with errcode := some e }) = [1, 2, 3, 4, 5] := by decide

theorem witness_ErrorsOfEachCommand :
    (∃ t, exec .imprint sImprint = .next t) ∧ (∃ t, exec .extract sExtract = .next t) ∧
    (∃ t, exec .hide sHide = .next t) ∧ (∃ t, exec .recover sRecover = .next t) :=
  ⟨⟨_, rfl⟩, ⟨_, rfl⟩, ⟨_, rfl⟩, ⟨_, rfl⟩⟩

/-- A command that ends with an error meets the last clause. -/
theorem witness_EveryCommandCompletes :
    (nextOf (exec .recover sTooLong)).map (fun t => decide (t.errcode ≠ none)) = some true := by decide

/-! ### Witnesses: refusals and faults -/

theorem witness_ClenBeyondMemoryIsRefused :
    let s : State := { State.reset with clen := 65537 }
    s.cfg.carrierSize < s.clen.toNat := by decide

theorem witness_WideImprintIsRefused :
    let s : State := { State.resetWith narrow with size := 33 }
    clenOk s ∧ 32 < s.size.toNat ∧ s.cfg.imprintWide = .refuse := by decide

/-- The last byte of the window is the unwritten one. -/
theorem witness_UnwrittenWindowByteFaults :
    let s : State := { sImprint with carrier := fill 7 0 }
    s.cfg.Legal ∧ clenOk s ∧ s.offset.toNat + s.size.toNat ≤ s.clen.toNat ∧ s.size.toNat ≤ 32 ∧
      3 < s.size.toNat ∧ written s.carrier s.offset.toNat 3 ∧ memGet s.carrier (s.offset.toNat + 3) = none := by decide

/-- The wide window: its last byte is the unwritten one, and IMPRINT_WIDE is `zero`. -/
theorem witness_UnwrittenWindowByteFaults_wide :
    let s : State := { sWide with carrier := fill 32 0 }
    s.cfg.Legal ∧ clenOk s ∧ s.offset.toNat + s.size.toNat ≤ s.clen.toNat ∧ 32 < s.size.toNat ∧
      s.cfg.imprintWide = .zero ∧ 32 < s.size.toNat ∧ written s.carrier s.offset.toNat 32 ∧
      memGet s.carrier (s.offset.toNat + 32) = none := by decide

/-- The last byte of the length window; the last byte of the last per-byte window. -/
theorem witness_HideUnwrittenPayloadFaults_carrier :
    (let s : State := { sHide with hdr := 0, plen := 0, carrier := fill 31 0 }
     s.cfg.Legal ∧ clenOk s ∧ s.hdr.toNat + 32 + 4 * s.plen.toNat ≤ s.clen.toNat ∧
       written s.carrier s.hdr.toNat 31 ∧ memGet s.carrier (s.hdr.toNat + 31) = none) ∧
    (let s : State := { sHide with carrier := fill 39 0 }
     s.cfg.Legal ∧ clenOk s ∧ s.hdr.toNat + 32 + 4 * s.plen.toNat ≤ s.clen.toNat ∧ 0 < s.plen.toNat ∧
       written s.carrier s.hdr.toNat (32 + 4 * 0 + 3) ∧ written s.payload 0 (0 + 1) ∧
       memGet s.carrier (s.hdr.toNat + 32 + 4 * 0 + 3) = none) := by decide

theorem witness_HideUnwrittenPayloadFaults :
    let s : State := { sHide with hdr := 0, plen := 2 }
    s.cfg.Legal ∧ clenOk s ∧ s.hdr.toNat + 32 + 4 * s.plen.toNat ≤ s.clen.toNat ∧ 1 < s.plen.toNat ∧
      written s.carrier s.hdr.toNat (32 + 4 * 1) ∧ written s.payload 0 1 ∧ memGet s.payload 1 = none := by decide

theorem witness_RecoverUnwrittenLengthFaults :
    let s : State := idleWith (fill 31 0) [] 40
    s.cfg.Legal ∧ clenOk s ∧ s.hdr.toNat + 32 ≤ s.clen.toNat ∧ 31 < 32 ∧
      written s.carrier s.hdr.toNat 31 ∧ memGet s.carrier (s.hdr.toNat + 31) = none := by decide

/-- The length window holds 2^64-1; window 1, which ends exactly at CLEN, has its last byte unwritten. -/
theorem witness_RecoverUnwrittenLengthFaults_window :
    let s : State := { sTooLong with carrier := fill 39 0x03 }
    s.cfg.Legal ∧ clenOk s ∧
      (∀ i < 32, pair 0xFFFFFFFFFFFFFFFF#64 i = carried (byteAt s.carrier (s.hdr.toNat + i))) ∧
      1 < (0xFFFFFFFFFFFFFFFF#64 : Word).toNat ∧ s.hdr.toNat + 36 + 4 * 1 = s.clen.toNat ∧
      written s.carrier s.hdr.toNat (32 + 4 * 1 + 3) ∧ memGet s.carrier (s.hdr.toNat + 32 + 4 * 1 + 3) = none := by
  decide

/-! ### Witnesses: IMPRINT and EXTRACT -/

/-- Position 32 is the first wide one; position 31 the last that carries value bits. -/
theorem witness_PairSelection : 32 ≤ 32 ∧ pair 0xFFFFFFFFFFFFFFFF#64 31 = 3#2 := by decide

theorem witness_ImprintWritesWindow :
    sImprint.cfg.Legal ∧ clenOk sImprint ∧ sImprint.size.toNat ≤ 32 ∧
      sImprint.offset.toNat + sImprint.size.toNat ≤ sImprint.clen.toNat ∧
      written sImprint.carrier sImprint.offset.toNat sImprint.size.toNat := by decide

theorem witness_ImprintWritesWindow_wide :
    sWide.cfg.Legal ∧ clenOk sWide ∧ sWide.cfg.imprintWide = .zero ∧
      sWide.offset.toNat + sWide.size.toNat ≤ sWide.clen.toNat ∧
      written sWide.carrier sWide.offset.toNat sWide.size.toNat := by decide

theorem witness_ImprintFrame : ∃ t, exec .imprint sImprint = .next t := ⟨_, rfl⟩

/-- V12: one byte too far. -/
theorem witness_WindowBeyondBufferIsRejected :
    let s : State := { sImprint with offset := 5 }
    clenOk s ∧ s.clen.toNat < s.offset.toNat + s.size.toNat ∧ s.offset.toNat + s.size.toNat ≤ idxMax s.cfg ∧
      s.size.toNat ≤ 32 := by decide

/-- V11: the window ends at IDX_MAX, which does not overflow. -/
theorem witness_WindowBeyondBufferIsRejected_edge :
    let s : State := { sImprint with offset := 0xFFFFFFFFFFFFFFFF, size := 0 }
    clenOk s ∧ s.clen.toNat < s.offset.toNat + s.size.toNat ∧
      s.offset.toNat + s.size.toNat = idxMax s.cfg := by decide

/-- V10: one more overflows. -/
theorem witness_WindowBeyondBufferIsRejected_overflow :
    let s : State := { sImprint with offset := 0xFFFFFFFFFFFFFFFF, size := 1 }
    clenOk s ∧ idxMax s.cfg < s.offset.toNat + s.size.toNat ∧ s.size.toNat ≤ 32 := by decide

theorem witness_ImprintDropsHighBits :
    (0x10B#64 : Word).toNat % 4 ^ sImprint.size.toNat = sImprint.value.toNat % 4 ^ sImprint.size.toNat ∧
      ∃ t, exec .imprint sImprint = .next t := ⟨by decide, _, rfl⟩

theorem witness_ExtractReadsWindow :
    sExtract.cfg.Legal ∧ clenOk sExtract ∧ sExtract.size.toNat ≤ 32 ∧
      sExtract.offset.toNat + sExtract.size.toNat ≤ sExtract.clen.toNat ∧
      written sExtract.carrier sExtract.offset.toNat sExtract.size.toNat := by decide

/-- V29: SIZE 33, the window ending exactly at CLEN. -/
theorem witness_ExtractSizeCeiling :
    let s : State := { idleWith (fill 40 0) [] 40 with offset := 7, size := 33 }
    clenOk s ∧ 32 < s.size.toNat ∧ s.offset.toNat + s.size.toNat ≤ idxMax s.cfg ∧
      s.offset.toNat + s.size.toNat ≤ s.clen.toNat := by decide

theorem witness_ExtractFrame : ∃ t, exec .extract sExtract = .next t := ⟨_, rfl⟩

theorem witness_ExtractIsIdempotent :
    let u : State := { sExtract with value := 1, done := true }
    u.cfg = sExtract.cfg ∧ u.offset = sExtract.offset ∧ u.size = sExtract.size ∧ u.clen = sExtract.clen ∧
      u.carrier = sExtract.carrier ∧ ∃ t, exec .extract sExtract = .next t :=
  ⟨rfl, rfl, rfl, rfl, rfl, _, rfl⟩

/-- The value fits its window, so the last clause is met too. -/
theorem witness_ImprintExtractRoundTrip :
    sImprint.cfg.Legal ∧ clenOk sImprint ∧ sImprint.size.toNat ≤ 32 ∧
      sImprint.offset.toNat + sImprint.size.toNat ≤ sImprint.clen.toNat ∧
      written sImprint.carrier sImprint.offset.toNat sImprint.size.toNat ∧
      sImprint.value.toNat < 2 ^ (2 * sImprint.size.toNat) := by decide

theorem witness_ExtractThenImprintIsIdentity :
    ∃ t, exec .extract sExtract = .next t ∧ t.errcode = none := ⟨_, rfl, rfl⟩

/-! ### Witnesses: HIDE and RECOVER -/

theorem witness_HideWritesLayout :
    sHide.cfg.Legal ∧ clenOk sHide ∧ sHide.hdr.toNat + 32 + 4 * sHide.plen.toNat ≤ sHide.clen.toNat ∧
      written sHide.carrier sHide.hdr.toNat (32 + 4 * sHide.plen.toNat) ∧
      written sHide.payload 0 sHide.plen.toNat := by decide

/-- V35: one payload byte too many. -/
theorem witness_HideCapacityRejection :
    let s : State := { sHide with plen := 2 }
    clenOk s ∧ s.clen.toNat - (s.hdr.toNat + 32) < 4 * s.plen.toNat := by decide

/-- V38 and V36, and the edge between them. -/
theorem witness_HideEmptyPayloadErrors :
    (let s : State := { idleWith (fill 8 0) [] 8 with hdr := 0xFFFFFFFFFFFFFFF0 }
     clenOk s ∧ s.plen.toNat = 0 ∧ idxMax s.cfg < s.hdr.toNat + 32) ∧
    (let s : State := { idleWith (fill 8 0) [] 8 with hdr := 0xFFFFFFFFFFFFFFDF }
     clenOk s ∧ s.plen.toNat = 0 ∧ s.hdr.toNat + 32 ≤ idxMax s.cfg ∧ s.clen.toNat < s.hdr.toNat + 32) ∧
    (let s : State := idleWith (fill 31 0) [] 31
     clenOk s ∧ s.plen.toNat = 0 ∧ s.hdr.toNat + 32 ≤ idxMax s.cfg ∧ s.clen.toNat < s.hdr.toNat + 32) := by decide

/-- The clauses: a HIDE that raises, one whose payload fits, which also completes. -/
theorem witness_HideIsAllOrNothing :
    sHide.cfg.Legal ∧ (∃ t, exec .hide sHide = .next t ∧ t.errcode = none) ∧ 1 ≤ sHide.plen.toNat ∧
    capacityOk sHide.plen.toNat sHide.hdr.toNat sHide.clen.toNat = true ∧
    ∃ t, exec .hide { sHide with plen := 2 } = .next t ∧ t.errcode = some .capacityExceeded :=
  ⟨by decide, ⟨_, rfl, rfl⟩, by decide, by decide, _, rfl, rfl⟩

theorem witness_FramerNonInterference :
    (∃ t, exec .hide sHide = .next t) ∧ ∃ t, exec .recover sTooLong = .next t := ⟨⟨_, rfl⟩, _, rfl⟩

theorem witness_RecoverReadsPayload :
    sRecover.cfg.Legal ∧ clenOk sRecover ∧
      (∀ i < 32, pair 2#64 i = carried (byteAt sRecover.carrier (sRecover.hdr.toNat + i))) ∧
      sRecover.hdr.toNat + 32 + 4 * (2#64 : Word).toNat ≤ sRecover.clen.toNat ∧
      written sRecover.carrier sRecover.hdr.toNat (32 + 4 * (2#64 : Word).toNat) := by decide

theorem witness_RecoverTooLongKeepsPlen :
    sTooLong.cfg.Legal ∧ clenOk sTooLong ∧
      (∀ i < 32, pair 0xFFFFFFFFFFFFFFFF#64 i = carried (byteAt sTooLong.carrier (sTooLong.hdr.toNat + i))) ∧
      sTooLong.hdr.toNat + 32 ≤ sTooLong.clen.toNat ∧ 2 = (sTooLong.clen.toNat - (sTooLong.hdr.toNat + 32)) / 4 ∧
      2 < (0xFFFFFFFFFFFFFFFF#64 : Word).toNat ∧ written sTooLong.carrier sTooLong.hdr.toNat (32 + 4 * 2) := by decide

/-- V48 and V46. -/
theorem witness_RecoverLengthWindowErrors :
    (let s : State := { idleWith (fill 8 0) [] 8 with hdr := 0xFFFFFFFFFFFFFFF0 }
     clenOk s ∧ idxMax s.cfg < s.hdr.toNat + 32) ∧
    (let s : State := idleWith (fill 31 0) [] 31
     clenOk s ∧ s.hdr.toNat + 32 ≤ idxMax s.cfg ∧ s.clen.toNat < s.hdr.toNat + 32) := by decide

/-- A RECOVER that ends with an error and one that changes a payload byte. -/
theorem witness_RecoverFrame :
    ∃ t, exec .recover sTooLong = .next t ∧ t.errcode = some .outOfBounds ∧
      memGet t.payload 1 ≠ memGet sTooLong.payload 1 := ⟨_, rfl, rfl, by decide⟩

theorem witness_HideRecoverRoundTrip :
    sHide.cfg.Legal ∧ clenOk sHide ∧ capacityOk sHide.plen.toNat sHide.hdr.toNat sHide.clen.toNat = true ∧
      sHide.hdr.toNat + 32 ≤ sHide.clen.toNat ∧
      written sHide.carrier sHide.hdr.toNat (32 + 4 * sHide.plen.toNat) ∧
      written sHide.payload 0 sHide.plen.toNat := by decide

/-! ### Witnesses: the host's accesses -/

theorem witness_HostWritesRegister : busy State.reset = false := by decide

/-- The first and the last reserved slot, and an access just outside each bound of a whole slot. -/
theorem witness_ReservedSlotsAndShapes :
    busy State.reset = false ∧ (8 ≤ 8 ∧ 8 ≤ 15) ∧ (8 ≤ 15 ∧ 15 ≤ 15) ∧ ¬ (7 = 8 ∧ 0 % 8 = 0 ∧ 0 < 128) ∧
    ¬ (8 = 8 ∧ 4 % 8 = 0 ∧ 4 < 128) ∧ ¬ (8 = 8 ∧ 128 % 8 = 0 ∧ 128 < 128) := by decide

theorem witness_CommandWriteStartsCommand : busy State.reset = false ∧ busy (sBusy 1 1) = true := by decide

theorem witness_HostWriteWhileBusyIsRefused :
    busy (sBusy 1 1) = true ∧ Slot.cmd ≠ Slot.reserved ∧ 65535 < spaceSize (sBusy 1 1).cfg .carrier := by decide

theorem witness_HostReadsWhileBusy :
    busy (sBusy 1 1) = true ∧ (8 ≤ 8 ∧ 8 ≤ 15) ∧ 16383 < spaceSize (sBusy 1 1).cfg .payload := by decide

theorem witness_HostByteWriteThenRead :
    busy State.reset = false ∧ 65535 < spaceSize State.reset.cfg .carrier := by decide

theorem witness_HostByteAccessStops :
    (busy State.reset = false ∧ 0 < spaceSize State.reset.cfg .payload ∧
      memGet (memoryOf State.reset .payload) 0 = none) ∧
    (2 ≠ 1) ∧ spaceSize State.reset.cfg .payload ≤ 16384 := by decide

theorem witness_HostReadsHaveNoSideEffect :
    (∃ t, execHostOp (.regRead 0 8) State.reset = .next t) ∧
    (∃ t, execHostOp (.memRead .carrier 0 1) sImprint = .next t) ∧
    (∃ t, execHostOp (.bnzBusy 0) (sBusy 1 1) = .next t) := ⟨⟨_, rfl⟩, ⟨_, rfl⟩, _, rfl⟩

theorem witness_PollBranchesOnBusy : busy (sBusy 1 1) = true ∧ busy State.reset = false := by decide

/-! ### Witnesses: the end of a run -/

theorem witness_GoodEndIsWhereARunRests : GoodEnd State.reset ∧ step State.reset = .next State.reset :=
  ⟨by decide, rfl⟩

/-- R122, R136: a script whose last operation asserts reset is not at its good end before the reset is taken. -/
theorem test_reset_last_is_no_end_yet :
    (nextOf (step (sHost .reset))).map (fun t => decide (GoodEnd t)) = some false ∧
    (nextOf (step { sHost .reset with hpc := 1, resetIn := true })).map (fun t => decide (GoodEnd t)) = some true := by
  decide

end Sys2Proof.Tests
end

section
/-! SUPPORT. The state of the block (10_state.md): the STATUS word and its BUSY bit, the register slots under a host
write, the reset values, and which steps change BUSY and DONE. -/

namespace Sys2Proof.Machine

variable {s t : State}

/-! ### BUSY is the presence of a pending word (R21, R36) -/

theorem busy_eq_true_iff : busy s = true ↔ s.pcw ≠ none := Option.isSome_iff_ne_none

theorem busy_congr (h : t.pcw = s.pcw) : busy t = busy s := congrArg Option.isSome h

theorem busy_of_pcw {w : Word} (h : s.pcw = some w) : busy s = true := congrArg Option.isSome h

@[simp] theorem busy_finish (e : Option ErrKind) (s : State) : busy (finish e s) = false := rfl

@[simp] theorem busy_acceptCommand (w : Word) (s : State) : busy (acceptCommand w s) = true :=
  busy_of_pcw (acceptCommand_pcw s w)

@[simp] theorem busy_applyReset (s : State) : busy (applyReset s) = false :=
  congrArg Option.isSome (applyReset_pcw s)

/-! ### The fields of STATUS (R20, R23, R24) -/

theorem errField_le_five (s : State) : (errField s).toNat ≤ 5 := by
  unfold errField
  cases s.errcode with
  | none => decide
  | some e => cases e <;> decide

/-- R20, R24: each field of STATUS by its bits, for each of the 64 choices of ERRCODE, DONE and BUSY. -/
theorem statusWord_fields (s : State) :
    (statusWord s).getLsbD 0 = busy s ∧
    (statusWord s).getLsbD 1 = s.done ∧
    (statusWord s).extractLsb' 2 6 = 0#6 ∧
    (statusWord s).extractLsb' 8 4 = errField s ∧
    (statusWord s).extractLsb' 12 52 = 0#52 := by
  unfold statusWord
  generalize errField s = e
  generalize s.done = d
  generalize busy s = b
  revert e d b
  decide

theorem statusWord_eq_zero (he : s.errcode = none) (hd : s.done = false) (hp : s.pcw = none) :
    statusWord s = 0 := by
  simp only [statusWord, errField, busy, he, hd, hp]
  decide

/-! ### The register slots after reset (R40) -/

theorem readSlot_applyReset (s : State) (r : Slot) : readSlot (applyReset s) r = 0 := by
  have hstatus : statusWord (applyReset s) = 0 :=
    statusWord_eq_zero (applyReset_errcode s) (applyReset_done s) (applyReset_pcw s)
  cases r <;> simp [readSlot, hstatus]

theorem readSlot_resetWith (p : Params) (r : Slot) : readSlot (State.resetWith p) r = 0 := by
  cases r with
  | status => exact statusWord_eq_zero rfl rfl rfl
  | _ => rfl

/-! ### The register slots under a host write (R31) -/

/-- R31: an index register stores the written word modulo `2^IDX_W`. -/
theorem truncIdx_toNat (w : IdxWidth) (v : Word) : (truncIdx w v).toNat = v.toNat % 2 ^ w.bits := by
  cases w with
  | w32 =>
    have h : v.toNat % 4294967296 < 18446744073709551616 := by omega
    simp [truncIdx, IdxWidth.bits, Nat.mod_eq_of_lt h]
  | w64 => exact (Nat.mod_eq_of_lt v.isLt).symm

/-- R25, R30: VALUE and PLEN keep the whole word. -/
theorem readSlot_writeSlot_word {r : Slot} (v : Word) (hr : r = .value ∨ r = .plen) :
    readSlot (writeSlot s v r) r = v := by
  obtain rfl | rfl := hr <;> rfl

/-- R31: an index register keeps the low IDX_W bits of the word. -/
theorem readSlot_writeSlot_index {r : Slot} (v : Word)
    (hr : r = .offset ∨ r = .size ∨ r = .clen ∨ r = .hdr) :
    readSlot (writeSlot s v r) r = truncIdx s.cfg.idxW v := by
  obtain rfl | rfl | rfl | rfl := hr <;> rfl

/-- A write of a slot but CMD leaves every other slot as it reads, STATUS included. -/
theorem readSlot_writeSlot_other {r r' : Slot} (v : Word) (hr : r ≠ .cmd) (hne : r' ≠ r) :
    readSlot (writeSlot s v r) r' = readSlot s r' := by
  cases r with
  | cmd => exact absurd rfl hr
  | status => rfl
  | reserved => rfl
  | value => cases r' with | value => exact absurd rfl hne | _ => rfl
  | offset => cases r' with | offset => exact absurd rfl hne | _ => rfl
  | size => cases r' with | size => exact absurd rfl hne | _ => rfl
  | clen => cases r' with | clen => exact absurd rfl hne | _ => rfl
  | hdr => cases r' with | hdr => exact absurd rfl hne | _ => rfl
  | plen => cases r' with | plen => exact absurd rfl hne | _ => rfl

@[simp] theorem writeSlot_carrier (s : State) (v : Word) (r : Slot) :
    (writeSlot s v r).carrier = s.carrier := by
  cases r <;> simp [writeSlot]

@[simp] theorem writeSlot_payload (s : State) (v : Word) (r : Slot) :
    (writeSlot s v r).payload = s.payload := by
  cases r <;> simp [writeSlot]

@[simp] theorem writeSlot_done (s : State) (v : Word) (r : Slot) : (writeSlot s v r).done = s.done := by
  cases r <;> simp [writeSlot]

theorem writeSlot_pcw {r : Slot} (v : Word) (hr : r ≠ .cmd) : (writeSlot s v r).pcw = s.pcw := by
  cases r with
  | cmd => exact absurd rfl hr
  | _ => rfl

@[simp] theorem readSlot_goTo (k : Nat) (s : State) (r : Slot) : readSlot (goTo k s) r = readSlot s r := by
  cases r <;> rfl

/-! ### The host's register accesses while BUSY is 0 -/

theorem execHostOp_regWrite {r : Slot} (v : Word) (hb : busy s = false) (hr : r ≠ .reserved) :
    execHostOp (.regWrite (slotOffset r) 8 v) s = .next (writeSlot (advance s) v r) := by
  simp only [execHostOp, hostRegWrite, slotOf_slotOffset]
  cases r with
  | reserved => exact absurd rfl hr
  | _ => simp [hb]

theorem execHostOp_regRead (r : Slot) (hb : busy s = false) :
    execHostOp (.regRead (slotOffset r) 8) s =
      .next (advance { s with reads := .word (readSlot s r) :: s.reads }) := by
  simp [execHostOp, hostRegRead, slotOf_slotOffset, hb, record]

/-! ### What a step does to BUSY and DONE -/

theorem step_of_nextActor {a : Actor} (h : nextActor s = a) : step s = act a s := congrArg (act · s) h

/-- R111, R112: where the engine moves, the pending command ends: DONE is set and no word is pending. -/
theorem step_engine_next {w : Word} (ha : nextActor s = .engine w) (h : step s = .next t) :
    t.done = true ∧ t.pcw = none := by
  have hword : execWord w s = .next t := (step_of_nextActor ha).symm.trans h
  obtain ⟨v, q, c, pl, e, rfl⟩ := execWord_next hword
  exact ⟨rfl, rfl⟩

/-- R22: no operation of the host changes DONE. -/
theorem execHostOp_done {op : HostOp} (h : execHostOp op s = .next t) : t.done = s.done := by
  obtain ⟨k, w, r, d, rfl, -⟩ | ⟨-, v, r, -, rfl⟩ | ⟨-, w, -, rfl⟩ | ⟨-, sp, a, b, -, rfl⟩ | rfl :=
    execHostOp_next h <;> simp

/-- R19, R21: an operation of the host keeps the pending word, unless it is a CMD write while BUSY is 0. -/
theorem execHostOp_pcw {op : HostOp} (h : execHostOp op s = .next t) :
    t.pcw = s.pcw ∨ (busy s = false ∧ ∃ w, op = .regWrite 0 8 w ∧ t.pcw = some w) := by
  obtain ⟨k, w, r, d, rfl, -⟩ | ⟨-, v, r, hr, rfl⟩ | ⟨hb, w, hop, rfl⟩ | ⟨-, sp, a, b, -, rfl⟩ | rfl :=
    execHostOp_next h
  · exact .inl rfl
  · exact .inl (writeSlot_pcw v hr)
  · exact .inr ⟨hb, w, hop, acceptCommand_pcw _ w⟩
  · exact .inl (setMemory_pcw s sp _)
  · exact .inl rfl

/-- R19, R21: a CMD write that the host's step accepts sets BUSY. -/
theorem step_cmdWrite_busy {w : Word} (ha : nextActor s = .host (.regWrite 0 8 w)) (h : step s = .next t) :
    busy t = true := by
  have hwrite : hostRegWrite 0 8 w s = .next t := (step_of_nextActor ha).symm.trans h
  obtain ⟨hr, -⟩ | ⟨r, hr, -, -, rfl⟩ := hostRegWrite_next hwrite
  · exact absurd hr (by decide)
  · obtain rfl : Slot.cmd = r := Option.some.inj hr
    exact busy_acceptCommand w _

/-- R21: BUSY rises only in a step of the host that writes CMD. -/
theorem step_busy_rises (h : step s = .next t) (hs : busy s = false) (ht : busy t = true) :
    ∃ w, nextActor s = .host (.regWrite 0 8 w) ∧ t.pcw = some w := by
  obtain ⟨-, rfl⟩ | ⟨-, w, hw, -⟩ | ⟨-, op, -, ha, hop⟩ | ⟨-, -, -, rfl⟩ := step_next h
  · simp at ht
  · simp [busy_of_pcw hw] at hs
  · obtain hkeep | ⟨-, w, rfl, hpcw⟩ := execHostOp_pcw hop
    · simp [busy_congr hkeep, hs] at ht
    · exact ⟨w, ha, hpcw⟩
  · simp [hs] at ht

/-- R21: BUSY falls only in the engine's step on the pending word, or in a reset. -/
theorem step_busy_falls (h : step s = .next t) (hs : busy s = true) (ht : busy t = false) :
    (∃ w, s.pcw = some w ∧ nextActor s = .engine w ∧ t.done = true) ∨ s.resetIn = true := by
  obtain ⟨hr, -⟩ | ⟨-, w, hw, ha, -⟩ | ⟨-, op, -, -, hop⟩ | ⟨-, -, -, rfl⟩ := step_next h
  · exact .inr hr
  · exact .inl ⟨w, hw, ha, (step_engine_next ha h).1⟩
  · obtain hkeep | ⟨hidle, -⟩ := execHostOp_pcw hop
    · simp [busy_congr hkeep, hs] at ht
    · simp [hs] at hidle
  · simp [hs] at ht

/-- R22: a step that is no reset keeps a DONE of 1. -/
theorem step_keeps_done (h : step s = .next t) (hd : s.done = true) (hr : s.resetIn = false) :
    t.done = true := by
  obtain ⟨hr', -⟩ | ⟨-, w, -, ha, -⟩ | ⟨-, op, -, -, hop⟩ | ⟨-, -, -, rfl⟩ := step_next h
  · simp [hr] at hr'
  · exact (step_engine_next ha h).1
  · exact (execHostOp_done hop).trans hd
  · exact hd

/-! ### The statements -/

/-- Settles O18: of the movers of a step, only a CMD write of the host raises BUSY, and only the engine or a reset
lowers it. -/
theorem busyChangesOnlyByCommandAndReset : Obligations.BusyChangesOnlyByCommandAndReset :=
  ⟨fun _ _ _ ha h => step_cmdWrite_busy ha h,
   fun _ _ h hs ht => step_busy_rises h hs ht,
   fun _ _ h hs ht => step_busy_falls h hs ht,
   fun _ _ _ ha h => congrArg Option.isSome (step_engine_next ha h).2⟩

/-- Settles O19: the engine's step sets DONE, and of the other movers of a step only a reset changes it. -/
theorem doneIsSetByCompletionAndKept : Obligations.DoneIsSetByCompletionAndKept :=
  ⟨applyReset_done, fun _ _ _ ha h => (step_engine_next ha h).1, fun _ _ h hd hr => step_keeps_done h hd hr⟩

/-- Settles O51: the accepted write is `writeSlot` on a slot other than CMD, and STATUS and BUSY stay, so the reads
that follow give what the slots hold. -/
theorem hostWritesRegister : Obligations.HostWritesRegister := by
  intro s v r hb hr
  have hres : r ≠ .reserved := by rintro rfl; simp at hr
  have hcmd : r ≠ .cmd := by rintro rfl; simp at hr
  have hpcw : (writeSlot (advance s) v r).pcw = s.pcw := writeSlot_pcw v hcmd
  refine ⟨writeSlot (advance s) v r, execHostOp_regWrite v hb hres, readSlot_writeSlot_word v, ?_, ?_, ?_,
    writeSlot_carrier _ v r, writeSlot_payload _ v r, hpcw⟩
  · intro hindex
    rw [readSlot_writeSlot_index v hindex, truncIdx_toNat]
    rfl
  · intro r' hne
    rw [readSlot_writeSlot_other v hcmd hne, advance_eq, readSlot_goTo]
  · intro r'
    exact execHostOp_regRead r' ((busy_congr hpcw).trans hb)

/-- Settles O9: every slot reads 0 after either reset, and the fields of STATUS are clear. -/
theorem resetValues : Obligations.ResetValues :=
  ⟨readSlot_resetWith, fun _ => ⟨rfl, rfl, rfl, rfl, rfl, rfl⟩, readSlot_applyReset,
   fun s => ⟨applyReset_pcw s, busy_applyReset s, applyReset_done s, by simp [errField]⟩⟩

/-- Settles O21: STATUS taken apart into its fields. -/
theorem statusWordFields : Obligations.StatusWordFields := by
  intro s
  obtain ⟨hbusy, hdone, hlow, herr, hhigh⟩ := statusWord_fields s
  exact ⟨hbusy, hdone, hlow, herr, hhigh, errField_le_five s, busy_eq_true_iff⟩

end Sys2Proof.Machine
end

section
/-! SUPPORT. ILLEGAL command words (30_encoding.md): decoding against encoding, the number of a command's word, and the
engine's answer to a word that names no command. -/

namespace Sys2Proof

/-- R59 to R62: a command's word holds its opcode in OP and 0 in RSVD. -/
theorem encode_fields (i : Instr) : opField (encode i) = opcodeOf i ∧ rsvdField (encode i) = 0#60 := by
  cases i with
  | imprint => exact Laws.EncodedFields.imprint
  | extract => exact Laws.EncodedFields.extract
  | hide => exact Laws.EncodedFields.hide
  | recover => exact Laws.EncodedFields.recover

/-- R61, R66: a word decodes to a command exactly when it is that command's word. -/
theorem decode_ok_iff (w : Word) (i : Instr) : decode w = .ok i ↔ w = encode i := by
  obtain ⟨hop, hrsvd⟩ := encode_fields i
  constructor
  · intro h
    unfold decode at h
    split at h
    · cases h
    next hzero =>
      have hcode : opField w = opcodeOf i := (decodeOp_ok_iff _ _).mp h
      rw [word_split w, not_not.mp hzero, hcode]
      rfl
  · rintro rfl
    unfold decode
    rw [if_neg (not_not.mpr hrsvd), hop]
    exact (decodeOp_ok_iff _ _).mpr rfl

/-- R59, R62: the words of commands are the numbers 1 to 4. -/
theorem encode_toNat_mem_Icc (i : Instr) : (encode i).toNat ∈ Set.Icc 1 4 := by
  cases i <;> exact ⟨by decide, by decide⟩

/-- R61, R63: a word with a bit of 63:4 set, or with OP 0x0 or 0x5 to 0xF, is no command's word. -/
theorem ne_encode_of_reserved {w : Word}
    (h : w.toNat / 16 ≠ 0 ∨ w.toNat % 16 = 0 ∨ 5 ≤ w.toNat % 16) (i : Instr) : w ≠ encode i := by
  rintro rfl
  obtain ⟨hlow, hhigh⟩ := encode_toNat_mem_Icc i
  omega

end Sys2Proof

namespace Sys2Proof.Machine

/-- R108, R113: the engine answers a word that names no command with IllegalCommand. -/
theorem execWord_of_ne_encode {w : Word} (h : ∀ i, w ≠ encode i) (s : State) :
    execWord w s = .next (finish (some .illegalCommand) s) := by
  unfold execWord
  split
  next i hi => exact absurd ((decode_ok_iff w i).mp hi) (h i)
  · rfl

/-- Settles O3: the engine moves, and a reserved word names no command. -/
theorem illegalWordRaisesIllegalCommand : Obligations.IllegalWordRaisesIllegalCommand := by
  intro s w hreset hpending hmoves hreserved
  rw [step_of_nextActor (nextActor_engine hreset hpending hmoves)]
  exact execWord_of_ne_encode (ne_encode_of_reserved hreserved) s

end Sys2Proof.Machine
end

section
/-! SUPPORT. The commands IMPRINT and EXTRACT (40_codec.md): which bits of a value a window takes, the two window
operations one after the other, and the frame and the errors of the two commands. -/

namespace Sys2Proof.Machine

variable {p : Params} {o n L : Nat} {m c : Memory} {v w : Word} {s t : State}

/-! ### A window takes the pairs below its size (R72, R80) -/

/-- R73: the imprint loop depends on the value by the pairs of the positions it passes. -/
theorem imprintBytes_congr {i : Nat} (h : ∀ k, i ≤ k → k < i + n → pair v k = pair w k) (m : Memory) :
    imprintBytes p v o n i m = imprintBytes p w o n i m := by
  induction n generalizing i m with
  | zero => rfl
  | succ n ih =>
    have hhead : pair v i = pair w i := h i le_rfl (by omega)
    have htail : ∀ m', imprintBytes p v o n (i + 1) m' = imprintBytes p w o n (i + 1) m' :=
      ih fun k hlow hhigh => h k (by omega) (by omega)
    simp only [imprintBytes, hhead, htail]

/-- R80: `ImprintWindow` depends on the value modulo `4^s` only. -/
theorem imprintWindow_congr (h : v.toNat % 4 ^ n = w.toNat % 4 ^ n) :
    imprintWindow p v o n L m = imprintWindow p w o n L m := by
  have hbytes : imprintBytes p v o n 0 m = imprintBytes p w o n 0 m :=
    imprintBytes_congr (fun k _ hk => pairs_of_mod_eq h (by omega)) m
  simp only [imprintWindow, hbytes]

/-! ### ImprintWindow, then ExtractWindow (R75) -/

/-- `ImprintWindow` keeps every written-since-reset mark. -/
theorem imprintWindow_written {a k : Nat} (h : imprintWindow p v o n L m = .ok c) (hw : written m a k) :
    written c a k := by
  intro j hj
  have hmark := congrArg Option.isSome (imprintWindow_high h (a + j))
  rw [Option.isSome_map, Option.isSome_map] at hmark
  exact hmark.trans (hw j hj)

/-- A byte of the window carries its pair of the value imprinted there. -/
theorem carried_imprintWindow {k : Nat} (h : imprintWindow p v o n L m = .ok c) (hw : written m o n)
    (hk : k < n) : carried (byteAt c (o + k)) = pair v k := by
  have hget := imprintWindow_get_inside h (a := o + k) (by omega)
  rw [memGet_of_written hw hk, Nat.add_sub_cancel_left] at hget
  simp [byteAt, hget, carried_setCarried]

/-- R75: what is read from a window is what was imprinted there, modulo `4^s`. -/
theorem extractWindow_imprintWindow (hi : imprintWindow p v o n L m = .ok c) (hm : written m o n)
    (he : extractWindow p o n L c = .ok w) : w.toNat = v.toNat % 4 ^ n := by
  have hpairs : ∀ k < n, pair w k = pair v k := fun k hk => by
    rw [extractWindow_pairs he, if_pos hk, carried_imprintWindow hi hm hk]
  rw [← mod_eq_of_pairs hpairs, Nat.mod_eq_of_lt (extractWindow_lt he)]

/-! ### ExtractWindow, then ImprintWindow (R83) -/

/-- A window that has been read can be written, whatever the value. -/
theorem imprintWindow_of_extractWindow (w : Word) (hL : L ≤ p.carrierSize)
    (h : extractWindow p o n L m = .ok v) : ∃ c, imprintWindow p w o n L m = .ok c := by
  have hcheck : windowCheck p o n L = none := (extractWindow_ok_iff.1 h).1
  have hin : o + n ≤ L := (windowCheck_none_iff.1 hcheck).2
  obtain ⟨c, hc⟩ := imprintBytes_ok w (i := 0) (show o + 0 + n ≤ p.carrierSize by omega) (extractWindow_written h)
  exact ⟨c, imprintWindow_ok_iff.2 ⟨hcheck, hc⟩⟩

/-- R83: writing back what was read changes no byte: each byte gets the pair it carries. -/
theorem imprintWindow_extracted (he : extractWindow p o n L m = .ok v)
    (hi : imprintWindow p v o n L m = .ok c) (a : Nat) : memGet c a = memGet m a := by
  by_cases ha : o ≤ a ∧ a < o + n
  · obtain ⟨k, rfl⟩ := Nat.exists_eq_add_of_le ha.1
    have hk : k < n := by omega
    have hpair : pair v k = carried (byteAt m (o + k)) := by rw [extractWindow_pairs he, if_pos hk]
    rw [imprintWindow_get_inside hi ha, Nat.add_sub_cancel_left, hpair,
      memGet_of_written (extractWindow_written he) hk, Option.map_some, setCarried_carried]
  · exact imprintWindow_get_outside hi ha

/-! ### The commands -/

/-- R14: an IMPRINT that answers a next state has SIZE at most 32 or writes zeros above. -/
theorem execImprint_next_size (h : execImprint s = .next t) :
    s.size.toNat ≤ 32 ∨ s.cfg.imprintWide = .zero := by
  unfold execImprint at h
  split at h
  · cases h
  split at h
  · cases h
  next hwide =>
    cases hcfg : s.cfg.imprintWide with
    | zero => exact .inr rfl
    | refuse => exact .inl (Nat.le_of_not_lt fun hsize => hwide ⟨hsize, hcfg⟩)

/-- R71, R78: IMPRINT and EXTRACT raise the error of the window check. -/
theorem exec_windowCheck_raise {e : ErrKind} (hL : clenOk s)
    (h : windowCheck s.cfg s.offset.toNat s.size.toNat s.clen.toNat = some e) :
    ((s.size.toNat ≤ 32 ∨ s.cfg.imprintWide = .zero) → exec .imprint s = .next (finish (some e) s)) ∧
      exec .extract s = .next (finish (some e) s) :=
  ⟨fun hsize => execImprint_raise hL hsize h, execExtract_raise hL (extractWindow_raise_iff.2 (.inl h))⟩

/-! ### The statements -/

/-- Settles O32: an IMPRINT that raises keeps the carrier, and one that completes leaves what `ImprintWindow` does. -/
theorem imprintFrame : Obligations.ImprintFrame := by
  intro s t h
  obtain ⟨-, ⟨e, -, rfl⟩ | ⟨c, hc, rfl⟩⟩ := execImprint_next h
  · exact ⟨s.carrier, some e, rfl, fun _ _ => rfl, fun _ => rfl, fun _ => rfl⟩
  · exact ⟨c, none, rfl, fun _ ha => imprintWindow_get_outside hc ha, imprintWindow_high hc,
      fun hne => absurd rfl hne⟩

/-- Settles O34: the window check does not look at VALUE, and the window takes it modulo `4^SIZE`. -/
theorem imprintDropsHighBits : Obligations.ImprintDropsHighBits := by
  intro s t v hv h
  have hsize := execImprint_next_size h
  obtain ⟨hL, ⟨e, he, rfl⟩ | ⟨c, hc, rfl⟩⟩ := execImprint_next h
  · exact execImprint_raise (s := { s with value := v }) hL hsize he
  · exact execImprint_ok (s := { s with value := v }) hL hsize ((imprintWindow_congr hv).trans hc)

/-- Settles O38: EXTRACT's outcome is that of `ExtractWindow`, which takes nothing of the state but the parameters,
OFFSET, SIZE, CLEN and the carrier. -/
theorem extractIsIdempotent : Obligations.ExtractIsIdempotent := by
  intro s u t hcfg hoffset hsize hclen hcarrier h
  have hwindow : extractWindow u.cfg u.offset.toNat u.size.toNat u.clen.toNat u.carrier =
      extractWindow s.cfg s.offset.toNat s.size.toNat s.clen.toNat s.carrier := by
    rw [hcfg, hoffset, hsize, hclen, hcarrier]
  obtain ⟨hL, hend⟩ := execExtract_next h
  have hLu : u.clen.toNat ≤ u.cfg.carrierSize := by rwa [hclen, hcfg]
  obtain ⟨e, he, rfl⟩ | ⟨v, hv, rfl⟩ := hend
  · exact ⟨rfl, rfl, finish (some e) u, execExtract_raise hLu (hwindow.trans he), rfl, fun hnone => nomatch hnone⟩
  · exact ⟨rfl, rfl, finish none { u with value := v }, execExtract_ok hLu (hwindow.trans hv), rfl, fun _ => rfl⟩

/-- Settles O39: the window that IMPRINT leaves is still written, so EXTRACT completes and reads the pairs back. -/
theorem imprintExtractRoundTrip : Obligations.ImprintExtractRoundTrip := by
  intro s hp hL hsize hin hw
  obtain ⟨c, hc⟩ := imprintWindow_ok s.value hp hL hin hw
  obtain ⟨v, hv⟩ := extractWindow_ok hp hL hin hsize (imprintWindow_written hc hw)
  have hvalue : v.toNat = s.value.toNat % 2 ^ (2 * s.size.toNat) := by
    rw [pow_mul]
    exact extractWindow_imprintWindow hc hw hv
  refine ⟨finish none { s with carrier := c }, finish none { s with carrier := c, value := v },
    execImprint_ok hL (.inl hsize) hc, rfl, execExtract_ok hL hv, rfl, hvalue, fun hfits => ?_⟩
  exact BitVec.eq_of_toNat_eq (hvalue.trans (Nat.mod_eq_of_lt hfits))

/-- Settles O40: an EXTRACT that completes has read its window, so IMPRINT of the value completes, and each byte gets
the pair it carries. -/
theorem extractThenImprintIsIdentity : Obligations.ExtractThenImprintIsIdentity := by
  intro s t h hnone
  obtain ⟨hL, ⟨e, -, rfl⟩ | ⟨v, hv, rfl⟩⟩ := execExtract_next h
  · cases hnone
  · have hsize : s.size.toNat ≤ 32 := (extractWindow_ok_iff.1 hv).2.1
    obtain ⟨c, hc⟩ := imprintWindow_of_extractWindow v hL hv
    exact ⟨finish none { s with value := v, carrier := c },
      execImprint_ok (s := finish none { s with value := v }) hL (.inl hsize) hc, rfl,
      imprintWindow_extracted hv hc⟩

/-- Settles O33: beyond CLEN the window check raises OutOfBounds, and beyond IDX_MAX Overflow. -/
theorem windowBeyondBufferIsRejected : Obligations.WindowBeyondBufferIsRejected :=
  fun _ hL => ⟨fun hbeyond hmax => exec_windowCheck_raise hL (windowCheck_outOfBounds_iff.2 ⟨hmax, hbeyond⟩),
    fun hover => exec_windowCheck_raise hL (windowCheck_overflow_iff.2 hover)⟩

/-- Settles O36: past the window check, `ExtractWindow` raises at a size above 32. -/
theorem extractSizeCeiling : Obligations.ExtractSizeCeiling := by
  intro s hL hsize hmax hin
  have hcheck := windowCheck_none_iff.2 ⟨hmax, hin⟩
  exact execExtract_raise hL (extractWindow_raise_iff.2 (.inr ⟨hcheck, hsize, rfl⟩))

end Sys2Proof.Machine
end
section
/-! SUPPORT. The framer (41_framer.md): the carrier that HIDE's two parts leave, the runs in which HIDE and RECOVER
complete, and the payload byte that a per-byte window gives back. -/

namespace Sys2Proof.Machine

variable {p : Params} {H L n : Nat} {m c c' pl : Memory} {v : Word} {e : Option ErrKind} {s : State}

/-! ### The carrier after the length window and HIDE's loop (R84 to R86, R97) -/

/-- R97: HIDE writes only the length window and the per-byte windows. -/
theorem hideLoop_imprintWindow_get_outside (hlen : imprintWindow p v H lenWin L m = .ok c)
    (hloop : hideLoop p H L pl n 0 c = .ok (c', e)) {a : Nat} (ha : ¬ (H ≤ a ∧ a < H + 32 + 4 * n)) :
    memGet c' a = memGet m a := by
  have hbytes := (hideLoop_get hloop a).1
  have hlength := imprintWindow_get_outside hlen (a := a)
  simp only [byteWindow, byteWin, lenWin] at hbytes hlength
  exact (hbytes (by omega)).trans (hlength (by omega))

/-- R85: the length window holds the value imprinted there. -/
theorem hideLoop_imprintWindow_get_length (hlen : imprintWindow p v H lenWin L m = .ok c)
    (hloop : hideLoop p H L pl n 0 c = .ok (c', e)) {i : Nat} (hi : i < 32) :
    memGet c' (H + i) = (memGet m (H + i)).map (fun b => setCarried b (pair v i)) := by
  have hbytes := (hideLoop_get hloop (H + i)).1
  have hlength := imprintWindow_get_inside hlen (a := H + i) ⟨by omega, by unfold lenWin; omega⟩
  simp only [byteWindow, byteWin, lenWin] at hbytes
  rw [hbytes (by omega), hlength, Nat.add_sub_cancel_left]

/-- R86: where HIDE's loop ends with no error, window `k` holds payload byte `k`. -/
theorem hideLoop_imprintWindow_get_byte (hlen : imprintWindow p v H lenWin L m = .ok c)
    (hloop : hideLoop p H L pl n 0 c = .ok (c', none)) {k i : Nat} (hk : k < n) (hi : i < 4) :
    memGet c' (H + 32 + 4 * k + i) = (memGet m (H + 32 + 4 * k + i)).map
      (fun b => setCarried b (pair ((byteAt pl k).setWidth 64) i)) := by
  have hbytes := (hideLoop_get hloop (H + 32 + 4 * k + i)).2 rfl k hk i hi (by rw [Nat.zero_add]; rfl)
  have hlength := imprintWindow_get_outside hlen (a := H + 32 + 4 * k + i) (by unfold lenWin; omega)
  rw [hbytes, hlength, Nat.zero_add]

/-! ### The commands run forward -/

/-- R89, R91: HIDE completes on written bytes when the payload fits, after both of its parts. -/
theorem execHide_completes (hp : s.cfg.Legal) (hL : clenOk s)
    (hin : s.hdr.toNat + 32 + 4 * s.plen.toNat ≤ s.clen.toNat)
    (hw : written s.carrier s.hdr.toNat (32 + 4 * s.plen.toNat)) (hpl : written s.payload 0 s.plen.toNat) :
    ∃ c c', imprintWindow s.cfg s.plen s.hdr.toNat lenWin s.clen.toNat s.carrier = .ok c ∧
      hideLoop s.cfg s.hdr.toNat s.clen.toNat s.payload s.plen.toNat 0 c = .ok (c', none) ∧
      execHide s = .next (finish none { s with carrier := c' }) := by
  obtain ⟨c, hc⟩ := imprintWindow_ok s.plen (s := 32) hp hL (by omega) (fun j hj => hw j (by omega))
  have hwc : written c (byteWindow s.hdr.toNat 0) (4 * s.plen.toNat) :=
    imprintWindow_written hc fun j hj => by
      have := hw (32 + j) (by omega)
      rwa [← Nat.add_assoc] at this
  obtain ⟨c', hc'⟩ := hideLoop_ok hp hL (.inr (by rwa [Nat.zero_add])) hpl hwc
  exact ⟨c, c', hc, hc', execHide_ok hL (capacityOk_iff.2 (by omega)) hc hc'⟩

/-- R92: RECOVER completes on written bytes when the length that the length window holds fits: PLEN is that length,
and the payload bytes below it are what their windows give, cut to 8 bits. -/
theorem execRecover_completes (hp : s.cfg.Legal) (hL : clenOk s)
    (hlen : ∀ i < 32, pair v i = carried (byteAt s.carrier (s.hdr.toNat + i)))
    (hin : s.hdr.toNat + 32 + 4 * v.toNat ≤ s.clen.toNat)
    (hw : written s.carrier s.hdr.toNat (32 + 4 * v.toNat)) :
    ∃ pl, execRecover s = .next (finish none { s with payload := pl, plen := v }) ∧
      (∀ k < v.toNat, ∃ b : Word,
        extractWindow s.cfg (byteWindow s.hdr.toNat k) byteWin s.clen.toNat s.carrier = .ok b ∧
          memGet pl k = some (b.setWidth 8)) ∧
      ∀ k, v.toNat ≤ k → memGet pl k = memGet s.payload k := by
  obtain ⟨w, hwin⟩ := extractWindow_ok (s := 32) hp hL (by omega) le_rfl (fun j hj => hw j (by omega))
  obtain rfl : w = v := word_ext_pairs fun i hi => by rw [extractWindow_pairs hwin, if_pos hi, hlen i hi]
  have hwb : written s.carrier (byteWindow s.hdr.toNat 0) (4 * w.toNat) := fun j hj => by
    have := hw (32 + j) (by omega)
    rwa [← Nat.add_assoc] at this
  obtain ⟨pl, hloop, hkept, hget⟩ := recoverLoop_run (pl := s.payload) w.toNat hp hL le_rfl
    (.inr (by rwa [Nat.zero_add])) hwb
  rw [Nat.sub_self] at hloop
  simp only [Nat.zero_add] at hkept hget
  exact ⟨pl, execRecover_of_loop hL hwin hloop, hget, fun k hk => hkept k (.inr hk)⟩

/-! ### What a window gives back -/

/-- A memory with the same bits 7:2 in every byte has the same written-since-reset marks. -/
theorem written_of_high {a k : Nat} (h : ∀ x, (memGet c x).map (fun b => b.extractLsb' 2 6) =
    (memGet m x).map (fun b => b.extractLsb' 2 6)) (hw : written m a k) : written c a k := by
  intro j hj
  have hmark := congrArg Option.isSome (h (a + j))
  rw [Option.isSome_map, Option.isSome_map] at hmark
  exact hmark.trans (hw j hj)

/-- A byte written with a pair carries it. -/
theorem carried_byteAt {a : Nat} {b : Byte} {x : Pair} (h : memGet c a = some (setCarried b x)) :
    carried (byteAt c a) = x := by
  simp [byteAt, h, carried_setCarried]

/-- R99: a value whose low four pairs are those of a byte is that byte when cut to 8 bits. -/
theorem setWidth_eq_of_pairs {x : Byte} (h : ∀ i < 4, pair v i = pair (x.setWidth 64) i) : v.setWidth 8 = x := by
  have hmod : v.toNat % 256 = x.toNat % 256 := by simpa using mod_eq_of_pairs h
  exact BitVec.eq_of_toNat_eq ((BitVec.toNat_setWidth 8 v).trans (hmod.trans (Nat.mod_eq_of_lt x.isLt)))

/-! ### The statements -/

/-- Settles O42: the capacity check, on exact sums, comes before any access. -/
theorem hideCapacityRejection : Obligations.HideCapacityRejection :=
  fun _ hL hc => execHide_capacity hL (capacityOk_false_iff.2 hc)

/-- Settles O45: a HIDE that raises before its loop keeps the carrier, and each `ImprintWindow` of the others writes
only pairs, in its window; RECOVER ends with the carrier it began with. -/
theorem framerNonInterference : Obligations.FramerNonInterference := by
  refine ⟨fun s t h => ?_, fun s t h => ?_⟩
  · obtain ⟨-, ⟨-, rfl⟩ | ⟨-, ⟨e, -, rfl⟩ | ⟨c, c', e, hlen, hloop, rfl⟩⟩⟩ := execHide_next h
    · exact ⟨s.carrier, some .capacityExceeded, rfl, fun _ _ => rfl, fun _ => rfl⟩
    · exact ⟨s.carrier, some e, rfl, fun _ _ => rfl, fun _ => rfl⟩
    · exact ⟨c', e, rfl, fun _ ha => hideLoop_imprintWindow_get_outside hlen hloop ha,
        fun a => (hideLoop_high hloop a).trans (imprintWindow_high hlen a)⟩
  · obtain ⟨-, ⟨e, -, rfl⟩ | ⟨m, pl, e, -, -, rfl⟩⟩ := execRecover_next h <;> rfl

/-- Settles O41: both parts of HIDE run to their end, and every byte of a window was written before. -/
theorem hideWritesLayout : Obligations.HideWritesLayout := by
  intro s hp hL hin hw hpl
  obtain ⟨c, c', hlen, hloop, hexec⟩ := execHide_completes hp hL hin hw hpl
  refine ⟨c', hexec, fun i hi => ?_, fun k hk i hi => ?_,
    fun _ ha => hideLoop_imprintWindow_get_outside hlen hloop ha⟩
  · rw [hideLoop_imprintWindow_get_length hlen hloop hi, memGet_of_written hw (by omega), Option.map_some]
  · have hbyte := memGet_of_written hw (j := 32 + 4 * k + i) (by omega)
    simp only [← Nat.add_assoc] at hbyte
    rw [hideLoop_imprintWindow_get_byte hlen hloop hk hi, hbyte, Option.map_some]

/-- Settles O50: the carrier that HIDE leaves is written and carries PLEN and the payload bytes (O41, O45), so RECOVER
completes, with the length and the bytes of those pairs. -/
theorem hideRecoverRoundTrip : Obligations.HideRecoverRoundTrip := by
  intro s hp hL hcap hH hw hpl
  have hin : s.hdr.toNat + 32 + 4 * s.plen.toNat ≤ s.clen.toNat := by
    have := capacityOk_iff.1 hcap
    omega
  obtain ⟨c, hexec, hlen, hbytes, -⟩ := hideWritesLayout s hp hL hin hw hpl
  obtain ⟨c', e, hnext, -, hhigh⟩ := framerNonInterference.1 s _ hexec
  obtain rfl : c = c' := congrArg State.carrier hnext
  refine ⟨_, hexec, rfl, fun u hcfg hcarrier hhdr hclen => ?_⟩
  obtain ⟨r, hrec, hget, -⟩ := execRecover_completes (s := u) (v := s.plen) (by rwa [hcfg])
    (by rwa [clenOk, hclen, hcfg]) (fun i hi => by rw [hcarrier, hhdr, carried_byteAt (hlen i hi)])
    (by rwa [hhdr, hclen]) (by rw [hcarrier, hhdr]; exact written_of_high hhigh hw)
  refine ⟨_, hrec, rfl, rfl, fun k hk => ?_⟩
  obtain ⟨b, hb, hbk⟩ := hget k hk
  rw [hcarrier, hhdr] at hb
  have hbyte : b.setWidth 8 = byteAt s.payload k := setWidth_eq_of_pairs fun i hi => by
    rw [extractWindow_pairs hb, if_pos (show i < byteWin from hi)]
    exact carried_byteAt (hbytes k hk i hi)
  have hk0 := memGet_of_written hpl hk
  rw [Nat.zero_add] at hk0
  exact (hbk.trans (congrArg some hbyte)).trans hk0.symm

end Sys2Proof.Machine
end

section
/-! SUPPORT. The host's writes while BUSY is 1 (70_reset_and_hazards.md). -/

namespace Sys2Proof.Machine

variable {s : State}

/-- R131: no slot but a reserved one takes a write while BUSY is 1. -/
theorem execHostOp_regWrite_busy {r : Slot} (v : Word) (hb : busy s = true) (hr : r ≠ .reserved) :
    execHostOp (.regWrite (slotOffset r) 8 v) s = .refused .hostWriteWhileBusy := by
  simp only [execHostOp, hostRegWrite, slotOf_slotOffset]
  cases r with
  | reserved => exact absurd rfl hr
  | _ => exact if_pos hb

/-- R131: no existing byte of a memory takes a write while BUSY is 1. -/
theorem execHostOp_memWrite_busy {sp : Space} {a : Nat} (b : Byte) (hb : busy s = true)
    (ha : a < spaceSize s.cfg sp) :
    execHostOp (.memWrite sp a 1 b) s = .refused .hostWriteWhileBusy := by
  have hshape : byteAccessOk s.cfg sp a 1 = true := byteAccessOk_iff.2 ⟨rfl, ha⟩
  simp [execHostOp, hostMemWrite, hshape, hb]

/-- Settles O54: the access has a whole slot's or byte's shape, so BUSY alone decides. -/
theorem hostWriteWhileBusyIsRefused : Obligations.HostWriteWhileBusyIsRefused :=
  fun _ hb => ⟨fun _ v hr => execHostOp_regWrite_busy v hb hr, fun _ _ b ha => execHostOp_memWrite_busy b hb ha⟩

end Sys2Proof.Machine
end

section
/-! SUPPORT. Decoding (30_encoding.md section 4) and who moves in a step (70_reset_and_hazards.md): the host's turns,
the engine's, what the host's reads and polls leave, and how long a pending command waits for the engine. -/

namespace Sys2Proof.Machine

variable {s t : State}

/-! ### The words of the commands (R62, R66) -/

theorem decode_encode (i : Instr) : decode (encode i) = .ok i := (decode_ok_iff _ i).2 rfl

/-- R66: a word that names no command is ILLEGAL. -/
theorem decode_error_of_ne_encode {w : Word} (h : ∀ i, w ≠ encode i) : ∃ r, decode w = .error r := by
  cases hw : decode w with
  | ok i => exact absurd ((decode_ok_iff w i).1 hw) (h i)
  | error r => exact ⟨r, rfl⟩

/-- Settles O2: a word decodes to a command exactly when it is that command's word, and the four words are 1 to 4. -/
theorem decodeAgreesWithEncode : Obligations.DecodeAgreesWithEncode :=
  ⟨fun w => decode_ok_iff w .imprint, fun w => decode_ok_iff w .extract, fun w => decode_ok_iff w .hide,
   fun w => decode_ok_iff w .recover, decode_ok_iff, fun _ h => decode_error_of_ne_encode h⟩

/-- Settles O1: nine fixed words, evaluated. -/
theorem decodesTheTableWords : Obligations.DecodesTheTableWords := by
  unfold Obligations.DecodesTheTableWords
  decide

/-! ### Who moves -/

theorem nextActor_reset (hr : s.resetIn = true) : nextActor s = .reset := if_pos hr

/-- The host moves while no command is pending or while the pending command's delay lasts. -/
theorem nextActor_host_iff {op : HostOp} : nextActor s = .host op ↔
    s.resetIn = false ∧ nextHostOp s = some op ∧ (s.pcw = none ∨ s.wait ≠ 0) := by
  unfold nextActor
  cases s.resetIn <;> cases s.pcw <;> cases nextHostOp s <;> simp
  split <;> simp_all

theorem step_engine {w : Word} (hr : s.resetIn = false) (hp : s.pcw = some w)
    (hw : s.wait = 0 ∨ nextHostOp s = none) : step s = execWord w s :=
  step_of_nextActor (nextActor_engine hr hp hw)

/-- R36, R66: the engine's step on a word that decodes to a command is that command. -/
theorem execWord_of_decode {w : Word} {i : Instr} (h : decode w = .ok i) (s : State) :
    execWord w s = exec i s := by
  simp only [execWord, h]

/-- Settles O4: the engine moves, and its step is the decoded command. -/
theorem stepRunsPendingCommand : Obligations.StepRunsPendingCommand :=
  fun s _ _ hr hp hw hd => (step_engine hr hp hw).trans (execWord_of_decode hd s)

/-- Settles O5: the placed word is pending with its delay over and no reset asserted. -/
theorem stepRunsPlacedCommand : Obligations.StepRunsPlacedCommand := by
  intro s w i h
  have hd : decode (BitVec.ofNat 64 (w % 2 ^ 64)) = .ok i := by
    simp only [decodeTableWord, le_refl, if_true] at h
    cases hw : decode (BitVec.ofNat 64 (w % 2 ^ 64)) with
    | ok j => rw [hw] at h; exact congrArg Except.ok (Option.some.inj h)
    | error r => rw [hw] at h; cases h
  exact stepRunsPendingCommand (s.withFetchWord 64 w) _ i rfl rfl (.inl rfl) hd

/-- Settles O6: `nextActor` looks at the reset input first. -/
theorem resetWins : Obligations.ResetWins := fun _ hr => step_of_nextActor (nextActor_reset hr)

/-- Settles O7: `nextActor` gives the host's operation, or the idle step. -/
theorem stepTakesTurns : Obligations.StepTakesTurns :=
  ⟨fun _ _ hr ho hw => step_of_nextActor (nextActor_host_iff.2 ⟨hr, ho, hw⟩),
   fun _ hr ho hp => step_of_nextActor (nextActor_idle_iff.2 ⟨hr, hp, ho⟩)⟩

/-! ### The reads of the host, and its place in the script (R52, R68) -/

/-- R52: what a read or a poll of the host leaves: of the state only the host's place, what it has read, the delay and
the draws change; the place is the next line, unless a poll while BUSY is 1 goes elsewhere. -/
abbrev HostReadFrame (s t : State) : Prop :=
  ∃ k r d, t = { s with hpc := k, wait := s.wait - 1, reads := r, draws := d } ∧ (busy s = false → k = s.hpc + 1)

theorem readSlotBusy_frame (s : State) (r : Slot) :
    ∃ rs d, readSlotBusy s r = { s with reads := rs, draws := d } := by
  cases r <;> exact ⟨_, _, rfl⟩

theorem hostRegRead_frame {a n : Nat} (h : hostRegRead a n s = .next t) : HostReadFrame s t := by
  obtain ⟨r, -, ⟨-, rfl⟩ | ⟨-, rfl⟩⟩ := hostRegRead_next h
  · obtain ⟨rs, d, hr⟩ := readSlotBusy_frame s r
    rw [hr]
    exact ⟨s.hpc + 1, rs, d, rfl, fun _ => rfl⟩
  · exact ⟨s.hpc + 1, _, s.draws, rfl, fun _ => rfl⟩

theorem hostMemRead_frame {sp : Space} {a n : Nat} (h : hostMemRead sp a n s = .next t) : HostReadFrame s t := by
  obtain ⟨-, rfl⟩ | ⟨-, b, -, rfl⟩ := hostMemRead_next h
  · exact ⟨s.hpc + 1, _, _, rfl, fun _ => rfl⟩
  · exact ⟨s.hpc + 1, _, s.draws, rfl, fun _ => rfl⟩

/-- R68: a poll goes to its line while BUSY is 1. -/
theorem hostBranchBusy_busy (k : Nat) (hb : busy s = true) : hostBranchBusy k s = .next (goTo k s) := if_pos hb

/-- R68: a poll goes on to the next line while BUSY is 0. -/
theorem hostBranchBusy_idle (k : Nat) (hb : busy s = false) : hostBranchBusy k s = .next (advance s) :=
  if_neg (by simp [hb])

theorem hostBranchBusy_frame {k : Nat} (h : hostBranchBusy k s = .next t) : HostReadFrame s t := by
  cases hb : busy s with
  | true =>
    cases (hostBranchBusy_busy k hb).symm.trans h
    exact ⟨k, s.reads, s.draws, rfl, fun hidle => by simp [hb] at hidle⟩
  | false =>
    cases (hostBranchBusy_idle k hb).symm.trans h
    exact ⟨s.hpc + 1, s.reads, s.draws, rfl, fun _ => rfl⟩

/-- Settles O58: each of the three reads has the frame of a read. -/
theorem hostReadsHaveNoSideEffect : Obligations.HostReadsHaveNoSideEffect := by
  intro s t op hop h
  have hframe : HostReadFrame s t := by
    obtain ⟨a, n, rfl⟩ | ⟨sp, a, n, rfl⟩ | ⟨k, rfl⟩ := hop
    · exact hostRegRead_frame h
    · exact hostMemRead_frame h
    · exact hostBranchBusy_frame h
  obtain ⟨k, r, d, ht, -⟩ := hframe
  exact ⟨k, r, d, ht⟩

/-- Settles O59: a poll is `hostBranchBusy`, which looks at BUSY alone. -/
theorem pollBranchesOnBusy : Obligations.PollBranchesOnBusy :=
  fun _ k => ⟨hostBranchBusy_busy k, hostBranchBusy_idle k⟩

theorem writeSlot_hpc (s : State) (v : Word) (r : Slot) : (writeSlot s v r).hpc = s.hpc := by
  cases r <;> simp [writeSlot]

/-- While no command is pending, every operation of the host takes it to the next line. -/
theorem execHostOp_hpc {op : HostOp} (hb : busy s = false) (h : execHostOp op s = .next t) : t.hpc = s.hpc + 1 := by
  have hread : HostReadFrame s t → t.hpc = s.hpc + 1 := by
    rintro ⟨k, r, d, rfl, hk⟩
    exact hk hb
  cases op with
  | regWrite a n v =>
    obtain ⟨-, rfl⟩ | ⟨r, -, -, -, rfl⟩ := hostRegWrite_next h
    · rfl
    · exact writeSlot_hpc _ v r
  | memWrite sp a n b =>
    obtain ⟨-, -, rfl⟩ := hostMemWrite_next h
    simp
  | regRead a n => exact hread (hostRegRead_frame h)
  | memRead sp a n => exact hread (hostMemRead_frame h)
  | bnzBusy k => exact hread (hostBranchBusy_frame h)
  | reset => cases h; rfl

/-- R131, and log entry 3: while a command is pending, every operation of the host that goes on takes one from the
delay. -/
theorem execHostOp_wait {op : HostOp} (hb : busy s = true) (h : execHostOp op s = .next t) :
    t.wait = s.wait - 1 := by
  have hread : HostReadFrame s t → t.wait = s.wait - 1 := by
    rintro ⟨k, r, d, rfl, -⟩
    rfl
  cases op with
  | regWrite a n v =>
    obtain ⟨-, rfl⟩ | ⟨r, -, -, hidle, -⟩ := hostRegWrite_next h
    · rfl
    · simp [hb] at hidle
  | memWrite sp a n b =>
    obtain ⟨-, hidle, -⟩ := hostMemWrite_next h
    simp [hb] at hidle
  | regRead a n => exact hread (hostRegRead_frame h)
  | memRead sp a n => exact hread (hostMemRead_frame h)
  | bnzBusy k => exact hread (hostBranchBusy_frame h)
  | reset => cases h; rfl

/-! ### A pending command is taken (R135) -/

/-- While a command is pending, a step that is the host's keeps the pending word and takes one from the delay. -/
theorem step_host_pending {w : Word} {op : HostOp} (ha : nextActor s = .host op) (hp : s.pcw = some w)
    (h : step s = .next t) : t.pcw = some w ∧ t.wait = s.wait - 1 := by
  have hop : execHostOp op s = .next t := (step_of_nextActor ha).symm.trans h
  have hb : busy s = true := busy_of_pcw hp
  obtain hkeep | ⟨hidle, -⟩ := execHostOp_pcw hop
  · exact ⟨hkeep.trans hp, execHostOp_wait hb hop⟩
  · simp [hb] at hidle

/-- With a command pending, the reset, the engine on the pending word or the host moves, the host only while the
delay lasts. -/
theorem nextActor_pending {w : Word} (hp : s.pcw = some w) :
    nextActor s = .engine w ∨ nextActor s = .reset ∨ ∃ op, nextActor s = .host op ∧ s.wait ≠ 0 := by
  cases hr : s.resetIn with
  | true => exact .inr (.inl (nextActor_reset hr))
  | false =>
    cases ho : nextHostOp s with
    | none => exact .inl (nextActor_engine hr hp (.inr ho))
    | some op =>
      by_cases hw : s.wait = 0
      · exact .inl (nextActor_engine hr hp (.inl hw))
      · exact .inr (.inr ⟨op, nextActor_host_iff.2 ⟨hr, ho, .inr hw⟩, hw⟩)

/-- One step of the machine behind the host's interface, then a run. -/
theorem run_succ_of_step (k : Nat) (h : step s = .next t) : core.run (k + 1) s = core.run k t := by
  have hstep : core.step s = .next t := h
  simp only [Host.Core.run, hstep]

/-- A run of one step that goes on is that step. -/
theorem step_of_run_one (h : core.run 1 s = .next t) : step s = .next t := by
  have hstep : core.step s = step s := rfl
  simp only [Host.Core.run, hstep] at h
  cases hs : step s <;> rw [hs] at h <;> cases h
  rfl

/-- Settles O8, by induction on the delay: while it lasts the host moves, which takes one from it, or the run stops. -/
theorem pendingCommandIsTakenInFiniteTime : Obligations.PendingCommandIsTakenInFiniteTime := by
  intro s w hp
  induction hn : s.wait generalizing s with
  | zero =>
    refine ⟨0, le_rfl, fun t ht => ?_⟩
    cases ht
    obtain ha | ha | ⟨op, -, hw⟩ := nextActor_pending hp
    · exact .inl ha
    · exact .inr ha
    · exact absurd hn hw
  | succ n ih =>
    obtain ha | ha | ⟨op, ha, -⟩ := nextActor_pending hp
    · exact ⟨0, Nat.zero_le _, fun t ht => by cases ht; exact .inl ha⟩
    · exact ⟨0, Nat.zero_le _, fun t ht => by cases ht; exact .inr ha⟩
    · by_cases hgoes : ∃ u, step s = .next u
      · obtain ⟨u, hu⟩ := hgoes
        obtain ⟨hpu, hwu⟩ := step_host_pending ha hp hu
        obtain ⟨k, hk, hrun⟩ := ih u hpu (by omega)
        exact ⟨k + 1, by omega, fun t ht => hrun t ((run_succ_of_step k hu).symm.trans ht)⟩
      · exact ⟨1, by omega, fun t ht => absurd ⟨t, step_of_run_one ht⟩ hgoes⟩

end Sys2Proof.Machine
end

section
/-! SUPPORT. What every step keeps: the parameters and the host's script, the records of a stop, ERRCODE until the next
completion, and the invariant; and the state where a run rests. -/

namespace Sys2Proof.Machine

variable {s t : State}

/-! ### What a host operation and the engine never change -/

/-- What only an implementation or a stop of the run sets: no step changes it (R39, 00_scope.md section 4). -/
abbrev SameFixture (s t : State) : Prop :=
  t.cfg = s.cfg ∧ t.script = s.script ∧ t.faultRec = s.faultRec ∧ t.refusalRec = s.refusalRec

theorem writeSlot_fixture (s : State) (v : Word) (r : Slot) : SameFixture s (writeSlot s v r) := by
  cases r <;> simp [SameFixture, writeSlot]

@[simp] theorem writeSlot_errcode (s : State) (v : Word) (r : Slot) : (writeSlot s v r).errcode = s.errcode := by
  cases r <;> simp [writeSlot]

theorem execHostOp_fixture {op : HostOp} (h : execHostOp op s = .next t) : SameFixture s t := by
  obtain ⟨k, w, r, d, rfl, -⟩ | ⟨-, v, r, -, rfl⟩ | ⟨-, w, -, rfl⟩ | ⟨-, sp, a, b, -, rfl⟩ | rfl := execHostOp_next h
  · exact ⟨rfl, rfl, rfl, rfl⟩
  · exact writeSlot_fixture (advance s) v r
  · simp [SameFixture]
  · simp [SameFixture]
  · simp [SameFixture]

/-- R23: no operation of the host changes ERRCODE. -/
theorem execHostOp_errcode {op : HostOp} (h : execHostOp op s = .next t) : t.errcode = s.errcode := by
  obtain ⟨k, w, r, d, rfl, -⟩ | ⟨-, v, r, -, rfl⟩ | ⟨-, w, -, rfl⟩ | ⟨-, sp, a, b, -, rfl⟩ | rfl :=
    execHostOp_next h <;> simp

theorem step_fixture (h : step s = .next t) : SameFixture s t := by
  obtain ⟨-, rfl⟩ | ⟨-, w, -, -, hword⟩ | ⟨-, op, -, -, hop⟩ | ⟨-, -, -, rfl⟩ := step_next h
  · simp [SameFixture]
  · obtain ⟨v, q, c, pl, e, rfl⟩ := execWord_next hword
    exact ⟨rfl, rfl, rfl, rfl⟩
  · exact execHostOp_fixture hop
  · exact ⟨rfl, rfl, rfl, rfl⟩

/-- Settles O16: reset, engine and host keep both. -/
theorem stepKeepsParameters : Obligations.StepKeepsParameters := fun _ _ h =>
  have ⟨hcfg, hscript, _, _⟩ := step_fixture h
  ⟨hcfg, hscript⟩

/-- Settles O20: the reset and the engine are excluded, and no operation of the host changes ERRCODE or DONE. -/
theorem errcodeKeptUntilCompletion : Obligations.ErrcodeKeptUntilCompletion := by
  intro s t h hr hengine
  obtain ⟨hr', -⟩ | ⟨-, w, -, ha, -⟩ | ⟨-, op, -, -, hop⟩ | ⟨-, -, -, rfl⟩ := step_next h
  · simp [hr] at hr'
  · exact absurd ha (hengine w)
  · exact ⟨execHostOp_errcode hop, execHostOp_done hop⟩
  · exact ⟨rfl, rfl⟩

/-! ### The records of a stop (R39, R121) -/

theorem stepRecorded_next (h : step s = .next t) : stepRecorded s = t := by simp only [stepRecorded, h, recordStop]

theorem stepRecorded_fault {f : Fault} (h : step s = .fault f) : stepRecorded s = { s with faultRec := some f } := by
  simp only [stepRecorded, h, recordStop]

theorem stepRecorded_refused {r : Refusal} (h : step s = .refused r) :
    stepRecorded s = { s with refusalRec := some r } := by
  simp only [stepRecorded, h, recordStop]

theorem stepRecorded_keeps_records (s : State) :
    (s.faultRec ≠ none → (stepRecorded s).faultRec ≠ none) ∧
    (s.refusalRec ≠ none → (stepRecorded s).refusalRec ≠ none) := by
  cases h : step s with
  | next t =>
    obtain ⟨-, -, hfault, hrefusal⟩ := step_fixture h
    rw [stepRecorded_next h, hfault, hrefusal]
    exact ⟨id, id⟩
  | fault f => rw [stepRecorded_fault h]; exact ⟨fun _ => Option.some_ne_none f, id⟩
  | refused r => rw [stepRecorded_refused h]; exact ⟨id, fun _ => Option.some_ne_none r⟩

theorem runRecorded_keeps_records (n : Nat) (s : State) :
    (s.faultRec ≠ none → (runRecorded n s).faultRec ≠ none) ∧
    (s.refusalRec ≠ none → (runRecorded n s).refusalRec ≠ none) := by
  induction n generalizing s with
  | zero => exact ⟨id, id⟩
  | succ n ih =>
    obtain ⟨hfault, hrefusal⟩ := stepRecorded_keeps_records s
    obtain ⟨ihfault, ihrefusal⟩ := ih (stepRecorded s)
    exact ⟨ihfault ∘ hfault, ihrefusal ∘ hrefusal⟩

/-- Settles O17, by induction on the length of the run. -/
theorem recordsAreNeverCleared : Obligations.RecordsAreNeverCleared :=
  ⟨fun _ _ h => congrArg State.faultRec (stepRecorded_fault h),
   fun _ _ h => congrArg State.refusalRec (stepRecorded_refused h),
   runRecorded_keeps_records, fun s => ⟨applyReset_faultRec s, applyReset_refusalRec s⟩⟩

/-! ### The invariant -/

/-- R9, R31: what an index register stores is an IDX_W-bit number. -/
theorem truncIdx_fits (p : Params) (v : Word) : idxFits p (truncIdx p.idxW v) := by
  have hlt : (truncIdx p.idxW v).toNat < 2 ^ p.idxW.bits := by
    rw [truncIdx_toNat]
    exact Nat.mod_lt _ (Nat.two_pow_pos _)
  exact Nat.le_sub_one_of_lt hlt

theorem idxFits_zero (p : Params) : idxFits p 0 := Nat.zero_le _

theorem resetWith_inv {p : Params} (hp : p.Legal) : StateInv (State.resetWith p) :=
  ⟨hp, memOk_nil _ _, memOk_nil _ _, idxFits_zero p, idxFits_zero p, idxFits_zero p, idxFits_zero p,
    fun he => absurd rfl he, fun _ => rfl⟩

/-- Settles O15: nothing is written and every register is 0, and the parameters of `State.reset` are legal. -/
theorem resetMeetsInvariant : Obligations.ResetMeetsInvariant :=
  ⟨fun _ hp => resetWith_inv hp, resetWith_inv (by decide)⟩

/-- A write of a slot but CMD keeps the invariant: what it changes is VALUE, PLEN or one index register (R31). -/
theorem writeSlot_inv {r : Slot} (v : Word) (hr : r ≠ .cmd) (h : StateInv s) : StateInv (writeSlot s v r) := by
  obtain ⟨hp, hc, hpl, ho, hs, hl, hh, he, hw⟩ := h
  have hv := truncIdx_fits s.cfg v
  cases r with
  | cmd => exact absurd rfl hr
  | offset => exact ⟨hp, hc, hpl, hv, hs, hl, hh, he, hw⟩
  | size => exact ⟨hp, hc, hpl, ho, hv, hl, hh, he, hw⟩
  | clen => exact ⟨hp, hc, hpl, ho, hs, hv, hh, he, hw⟩
  | hdr => exact ⟨hp, hc, hpl, ho, hs, hl, hv, he, hw⟩
  | _ => exact ⟨hp, hc, hpl, ho, hs, hl, hh, he, hw⟩

theorem goTo_inv (k : Nat) (h : StateInv s) : StateInv (goTo k s) := by
  obtain ⟨hp, hc, hpl, ho, hs, hl, hh, he, hw⟩ := h
  exact ⟨hp, hc, hpl, ho, hs, hl, hh, he, fun hnone => by rw [goTo_wait, hw hnone]⟩

theorem acceptCommand_inv (w : Word) (h : StateInv s) : StateInv (acceptCommand w s) := by
  obtain ⟨hp, hc, hpl, ho, hs, hl, hh, he, -⟩ := h
  simpa [StateInv] using ⟨hp, hc, hpl, ho, hs, hl, hh, he⟩

theorem setMemory_inv {sp : Space} {m : Memory} (hm : memOk s.cfg sp m) (h : StateInv s) :
    StateInv (setMemory s sp m) := by
  obtain ⟨hp, hc, hpl, hrest⟩ := h
  cases sp with
  | carrier => exact ⟨hp, hm, hpl, hrest⟩
  | payload => exact ⟨hp, hc, hm, hrest⟩

theorem memoryOf_ok (sp : Space) (h : StateInv s) : memOk s.cfg sp (memoryOf s sp) := by
  obtain ⟨-, hc, hpl, -⟩ := h
  cases sp with
  | carrier => exact hc
  | payload => exact hpl

theorem execHostOp_inv {op : HostOp} (h : execHostOp op s = .next t) (hs : StateInv s) : StateInv t := by
  obtain ⟨k, w, r, d, rfl, hw⟩ | ⟨-, v, r, hr, rfl⟩ | ⟨-, w, -, rfl⟩ | ⟨-, sp, a, b, ha, rfl⟩ | rfl :=
    execHostOp_next h
  · obtain ⟨hp, hc, hpl, ho, hsz, hl, hh, he, hwait⟩ := hs
    exact ⟨hp, hc, hpl, ho, hsz, hl, hh, he, fun hnone => Nat.le_zero.1 (hw.trans_eq (hwait hnone))⟩
  · exact writeSlot_inv v hr (goTo_inv _ hs)
  · exact acceptCommand_inv w (goTo_inv _ hs)
  · exact goTo_inv _ (setMemory_inv (memSet_ok b (memoryOf_ok sp hs) ha) hs)
  · exact goTo_inv (s.hpc + 1) hs

/-- The engine's step keeps both memories and the index registers, and ends with DONE set and no delay. -/
theorem execWord_inv {w : Word} (h : execWord w s = .next t) (hs : StateInv s) : StateInv t := by
  obtain ⟨hp, hc, hpl, ho, hsz, hl, hh, -, -⟩ := hs
  obtain ⟨hc', hpl'⟩ := execWord_memOk h hc hpl
  obtain ⟨v, q, c, pl, e, rfl⟩ := execWord_next h
  exact ⟨hp, hc', hpl', ho, hsz, hl, hh, fun _ => rfl, fun _ => rfl⟩

theorem applyReset_inv (hs : StateInv s) : StateInv (applyReset s) := by
  obtain ⟨hp, -⟩ := hs
  obtain ⟨hc, hpl⟩ := applyReset_memOk hp
  simp only [StateInv, applyReset_cfg, applyReset_offset, applyReset_size, applyReset_clen, applyReset_hdr,
    applyReset_errcode, applyReset_wait]
  exact ⟨hp, hc, hpl, idxFits_zero _, idxFits_zero _, idxFits_zero _, idxFits_zero _, fun he => absurd rfl he,
    fun _ => trivial⟩

/-- Settles O14: each of the movers of a step keeps the invariant. -/
theorem stepKeepsInvariant : Obligations.StepKeepsInvariant := by
  intro s t hs h
  obtain ⟨-, rfl⟩ | ⟨-, w, -, -, hword⟩ | ⟨-, op, -, -, hop⟩ | ⟨-, -, -, rfl⟩ := step_next h
  · exact applyReset_inv hs
  · exact execWord_inv hword hs
  · exact execHostOp_inv hop hs
  · exact hs

/-! ### Where a run rests (R136) -/

/-- A step of the host never leaves the state as it is: it goes to the next line, or a poll takes one from the
delay. -/
theorem execHostOp_ne_self {op : HostOp} (ha : nextActor s = .host op) : execHostOp op s ≠ .next s := by
  intro h
  obtain ⟨-, -, hpending⟩ := nextActor_host_iff.1 ha
  cases hb : busy s with
  | false =>
    have := execHostOp_hpc hb h
    omega
  | true =>
    have hwait := execHostOp_wait hb h
    obtain hnone | hne := hpending
    · exact busy_eq_true_iff.1 hb hnone
    · omega

/-- Only an idle step leaves the state as it is: a reset releases the reset input, and the engine ends the pending
command. -/
theorem step_self_iff : step s = .next s ↔ nextActor s = .idle := by
  refine ⟨fun h => ?_, fun ha => step_of_nextActor ha⟩
  obtain ⟨hr, hs⟩ | ⟨-, w, hp, ha, -⟩ | ⟨-, op, -, ha, hop⟩ | ⟨-, -, ha, -⟩ := step_next h
  · rw [hs, applyReset_resetIn] at hr
    cases hr
  · rw [(step_engine_next ha h).2] at hp
    cases hp
  · exact absurd hop (execHostOp_ne_self ha)
  · exact ha

theorem busy_eq_false_iff : busy s = false ↔ s.pcw = none := Option.isSome_eq_false_iff.trans Option.isNone_iff_eq_none

theorem goodEnd_iff : GoodEnd s ↔ step s = .next s ∧ s.faultRec = none ∧ s.refusalRec = none := by
  rw [step_self_iff, nextActor_idle_iff, GoodEnd, busy_eq_false_iff]
  tauto

theorem runRecorded_of_step_self (h : step s = .next s) (n : Nat) : runRecorded n s = s := by
  induction n with
  | zero => rfl
  | succ n ih => rw [runRecorded, stepRecorded_next h, ih]

/-- Settles O60: a good end is where nobody moves, and there a run of any length stays. -/
theorem goodEndIsWhereARunRests : Obligations.GoodEndIsWhereARunRests :=
  ⟨fun _ => goodEnd_iff, fun _ hs n => congrArg observe (runRecorded_of_step_self (goodEnd_iff.1 hs).1 n)⟩

end Sys2Proof.Machine
end

section
/-! SUPPORT. Reset with a command pending (70_reset_and_hazards.md, R122, R123): which bytes the aborted command could
have written, and what the reset leaves in them. -/

namespace Sys2Proof.Machine

variable {s : State}

/-! ### Refusals of a command -/

/-- R14: an IMPRINT of at most 32 bytes, or one that writes zeros above them, is not refused for its size. -/
theorem not_imprintWide (h : s.size.toNat ≤ 32 ∨ s.cfg.imprintWide = .zero) :
    ¬ (s.size.toNat > 32 ∧ s.cfg.imprintWide = .refuse) := by
  obtain hsize | hzero := h
  · omega
  · simp [hzero]

/-- R46, R14, R121: what a command refuses: a carrier buffer that does not exist, or a wide IMPRINT. -/
theorem exec_refused {i : Instr} {r : Refusal} (h : exec i s = .refused r) :
    s.cfg.carrierSize < s.clen.toNat ∨ (i = .imprint ∧ 32 < s.size.toNat ∧ s.cfg.imprintWide = .refuse) := by
  by_cases hL : s.clen.toNat > s.cfg.carrierSize
  · exact .inl hL
  cases i with
  | imprint =>
    by_cases hwide : s.size.toNat > 32 ∧ s.cfg.imprintWide = .refuse
    · exact .inr ⟨rfl, hwide⟩
    · rw [exec_imprint, execImprint, if_neg hL, if_neg hwide] at h
      split at h <;> cases h
  | extract =>
    rw [exec_extract, execExtract, if_neg hL] at h
    split at h <;> cases h
  | hide =>
    rw [exec_hide, execHide, if_neg hL] at h
    split at h
    · cases h
    split at h
    · cases h
    · cases h
    split at h <;> cases h
  | recover =>
    rw [exec_recover, execRecover, if_neg hL] at h
    split at h
    · cases h
    · cases h
    split at h <;> cases h

/-! ### The bytes a command could have written (R123) -/

theorem writeWindow_of_clenBeyondMemory (i : Instr) (h : s.cfg.carrierSize < s.clen.toNat) :
    (writeWindow i s).2.2 = 0 := by
  cases i with
  | extract => rfl
  | imprint => simp only [writeWindow, if_pos h]
  | hide => simp only [writeWindow, if_pos h]
  | recover => simp only [writeWindow, if_pos h]

theorem writeWindow_imprint_of_wide (hsize : 32 < s.size.toNat) (hwide : s.cfg.imprintWide = .refuse) :
    (writeWindow .imprint s).2.2 = 0 := by
  by_cases hL : s.clen.toNat > s.cfg.carrierSize
  · exact writeWindow_of_clenBeyondMemory .imprint hL
  · simp only [writeWindow, if_neg hL, if_pos (And.intro hsize hwide)]

/-- R78: an IMPRINT whose window fails the window check could have written nothing. -/
theorem writeWindow_imprint_of_raise
    (h : windowCheck s.cfg s.offset.toNat s.size.toNat s.clen.toNat ≠ none) : (writeWindow .imprint s).2.2 = 0 := by
  simp only [writeWindow, if_pos h]
  split
  · rfl
  · split <;> rfl

theorem writeWindow_imprint (hL : clenOk s) (hsize : s.size.toNat ≤ 32 ∨ s.cfg.imprintWide = .zero)
    (h : windowCheck s.cfg s.offset.toNat s.size.toNat s.clen.toNat = none) :
    writeWindow .imprint s = (.carrier, s.offset.toNat, s.size.toNat) := by
  simp only [writeWindow, if_neg (Nat.not_lt.2 hL), if_neg (not_imprintWide hsize), h, ne_eq, not_true_eq_false,
    if_false]

theorem writeWindow_hide_of_raise (h : capacityOk s.plen.toNat s.hdr.toNat s.clen.toNat = false ∨
    windowCheck s.cfg s.hdr.toNat lenWin s.clen.toNat ≠ none) : (writeWindow .hide s).2.2 = 0 := by
  simp only [writeWindow]
  split
  · rfl
  split
  · rfl
  next hcap => rw [if_pos (h.resolve_left hcap)]

theorem writeWindow_hide (hL : clenOk s) (hcap : capacityOk s.plen.toNat s.hdr.toNat s.clen.toNat = true)
    (h : windowCheck s.cfg s.hdr.toNat lenWin s.clen.toNat = none) :
    writeWindow .hide s = (.carrier, s.hdr.toNat, 32 + 4 * s.plen.toNat) := by
  simp only [writeWindow, if_neg (Nat.not_lt.2 hL), hcap, h, ne_eq, not_true_eq_false, if_false, Bool.true_eq_false]
  rfl

theorem writeWindow_recover_of_raise (h : windowCheck s.cfg s.hdr.toNat lenWin s.clen.toNat ≠ none) :
    (writeWindow .recover s).2.2 = 0 := by
  simp only [writeWindow, if_pos h]
  split <;> rfl

theorem writeWindow_recover (hL : clenOk s) (h : windowCheck s.cfg s.hdr.toNat lenWin s.clen.toNat = none) :
    writeWindow .recover s = (.payload, 0, recoverReach s) := by
  simp only [writeWindow, if_neg (Nat.not_lt.2 hL), h, ne_eq, not_true_eq_false, if_false]

/-- R93: a RECOVER could have written no payload byte whose window does not fit. -/
theorem recoverReach_le (s : State) : recoverReach s ≤ (s.clen.toNat - (s.hdr.toNat + 32)) / 4 := by
  unfold recoverReach
  split
  · exact Nat.min_le_right _ _
  · exact le_rfl

/-- R123: the payload bytes a RECOVER could have written, where its length window can be read. -/
theorem recoverReach_of_extractBytes {m : Word}
    (h : extractBytes s.cfg s.carrier s.hdr.toNat lenWin 0 0 = .ok m) :
    recoverReach s = min m.toNat ((s.clen.toNat - (s.hdr.toNat + 32)) / 4) := by
  simp only [recoverReach, h]
  rfl

/-! ### The bytes the pending command could have written -/

theorem abortWindow_of_encode {i : Instr} (h : s.pcw = some (encode i)) : abortWindow s = writeWindow i s := by
  simp only [abortWindow, h, decode_encode]

theorem marksClear_of_encode {i : Instr} (hp : s.pcw = some (encode i)) (h : (writeWindow i s).2.2 = 0) :
    marksClear (applyReset s) :=
  applyReset_marksClear (by rwa [abortWindow_of_encode hp])

theorem marksClear_of_idle (h : s.pcw = none) : marksClear (applyReset s) :=
  applyReset_marksClear (by simp only [abortWindow, h])

/-- R113: an ILLEGAL word writes nothing. -/
theorem marksClear_of_illegal {w : Word} (hp : s.pcw = some w) (h : ∀ i, w ≠ encode i) :
    marksClear (applyReset s) := by
  obtain ⟨r, hr⟩ := decode_error_of_ne_encode h
  exact applyReset_marksClear (by simp only [abortWindow, hp, hr])

theorem marksClear_of_refused {i : Instr} {r : Refusal} (hp : s.pcw = some (encode i))
    (h : exec i s = .refused r) : marksClear (applyReset s) := by
  obtain hL | ⟨rfl, hsize, hwide⟩ := exec_refused h
  · exact marksClear_of_encode hp (writeWindow_of_clenBeyondMemory i hL)
  · exact marksClear_of_encode hp (writeWindow_imprint_of_wide hsize hwide)

/-- A window that ends above CLEN or above IDX_MAX does not pass the window check. -/
theorem windowCheck_ne_none {p : Params} {o n L : Nat} (h : L < o + n ∨ idxMax p < o + n) :
    windowCheck p o n L ≠ none := by
  rw [Ne, windowCheck_none_iff]
  omega

/-- R93: a RECOVER with no room for a per-byte window could have written nothing. -/
theorem writeWindow_recover_of_no_room (h : s.clen.toNat < s.hdr.toNat + 36) : (writeWindow .recover s).2.2 = 0 := by
  by_cases hL : s.cfg.carrierSize < s.clen.toNat
  · exact writeWindow_of_clenBeyondMemory .recover hL
  by_cases hcheck : windowCheck s.cfg s.hdr.toNat lenWin s.clen.toNat = none
  · rw [writeWindow_recover (Nat.not_lt.1 hL) hcheck]
    have := recoverReach_le s
    show recoverReach s = 0
    omega
  · exact writeWindow_recover_of_raise hcheck

/-- Settles O10: a command that is refused or raises before its first write has an empty abort window. -/
theorem resetClearsMarksAndKeepsRecords : Obligations.ResetClearsMarksAndKeepsRecords := by
  refine ⟨fun s hp => marksClear_of_idle hp, fun s w hp h => marksClear_of_illegal hp h,
    fun s hp => marksClear_of_encode hp rfl, fun s i r hp h => marksClear_of_refused hp h,
    fun s hp h => marksClear_of_encode hp (writeWindow_imprint_of_raise (windowCheck_ne_none h)),
    fun s hp h => marksClear_of_encode hp (writeWindow_hide_of_raise ?_),
    fun s hp h => marksClear_of_encode hp ?_,
    fun s => ⟨applyReset_cfg s, applyReset_faultRec s, applyReset_refusalRec s, applyReset_script s,
      applyReset_hpc s, applyReset_reads s⟩⟩
  · exact h.imp capacityOk_false_iff.2 windowCheck_ne_none
  · obtain hroom | hover := h
    · exact writeWindow_recover_of_no_room hroom
    · exact writeWindow_recover_of_raise (windowCheck_ne_none (.inr hover))

/-! ### The draws an aborted command leaves -/

/-- R41, R123: a reset clears every mark of the memory that the aborted command does not write. -/
theorem applyReset_carrier_of_payload {n a : Nat} (h : abortWindow s = (.payload, a, n)) :
    (applyReset s).carrier = [] := by
  simp only [applyReset, h]
  rfl

theorem applyReset_payload_of_carrier {n a : Nat} (h : abortWindow s = (.carrier, a, n)) :
    (applyReset s).payload = [] := by
  simp only [applyReset, h]
  rfl

/-- R123: a reset leaves draws in the aborted command's range of its memory, and nothing outside it. -/
theorem applyReset_draws_get {sp : Space} {start n : Nat} (h : abortWindow s = (sp, start, n)) (a : Nat) :
    memGet (memoryOf (applyReset s) sp) a =
      if start ≤ a ∧ a < start + n then some (Config.freeByte (s.draws + (a - start))) else none := by
  simp only [applyReset_memGet, h, true_and]

/-- Settles O11: the abort window of an IMPRINT that runs is its window. -/
theorem abortedImprintLeavesDraws : Obligations.AbortedImprintLeavesDraws := by
  intro s hp hlegal hL hsize hin
  have hwindow : abortWindow s = (.carrier, s.offset.toNat, s.size.toNat) :=
    (abortWindow_of_encode hp).trans (writeWindow_imprint hL hsize (windowCheck_inside hlegal hL hin))
  exact ⟨applyReset_payload_of_carrier hwindow, applyReset_draws_get hwindow⟩

/-- Settles O12: the abort window of a HIDE that fits is all its windows, one after the other. -/
theorem abortedHideLeavesDraws : Obligations.AbortedHideLeavesDraws := by
  intro s hp hlegal hL hin
  have hcap : capacityOk s.plen.toNat s.hdr.toNat s.clen.toNat = true := capacityOk_iff.2 (by omega)
  have hcheck : windowCheck s.cfg s.hdr.toNat lenWin s.clen.toNat = none :=
    windowCheck_inside hlegal hL (by unfold lenWin; omega)
  have hwindow := (abortWindow_of_encode hp).trans (writeWindow_hide hL hcap hcheck)
  refine ⟨applyReset_payload_of_carrier hwindow, fun a => ?_⟩
  rw [Nat.add_assoc]
  exact applyReset_draws_get hwindow a

/-- Settles O13: the abort window of RECOVER is the payload bytes below its reach, which its length window bounds. -/
theorem abortedRecoverLeavesDraws : Obligations.AbortedRecoverLeavesDraws := by
  intro s m hp hlegal hL hin hw hlen
  have hcheck : windowCheck s.cfg s.hdr.toNat lenWin s.clen.toNat = none := windowCheck_inside hlegal hL hin
  have hwindow := (abortWindow_of_encode hp).trans (writeWindow_recover hL hcheck)
  obtain ⟨v, hv⟩ := extractWindow_ok (s := lenWin) hlegal hL hin le_rfl hw
  obtain rfl : v = m := word_ext_pairs fun i hi => by
    rw [extractWindow_pairs hv, if_pos (show i < lenWin from hi), hlen i hi]
  have hreach := recoverReach_of_extractBytes (extractWindow_ok_iff.1 hv).2.2
  refine ⟨applyReset_carrier_of_payload hwindow, fun a => ?_⟩
  have hrange : (0 ≤ a ∧ a < 0 + recoverReach s) ↔ (a < v.toNat ∧ s.hdr.toNat + 36 + 4 * a ≤ s.clen.toNat) := by
    omega
  exact (applyReset_draws_get hwindow a).trans (if_congr hrange rfl rfl)

end Sys2Proof.Machine
end

section
/-! SUPPORT. What a command ends with (60_exceptions.md): its errors, the registers it keeps, its refusals; and IMPRINT
and EXTRACT on the bytes of their window (40_codec.md). -/

namespace Sys2Proof.Machine

variable {p : Params} {H L n : Nat} {s t : State}

/-! ### The errors of each command (R103 to R107) -/

/-- HIDE's loop stops with the error of a window check. -/
theorem hideLoop_raise {pl m m' : Memory} {k : Nat} {e : ErrKind}
    (h : hideLoop p H L pl n k m = .ok (m', some e)) : e = .overflow ∨ e = .outOfBounds := by
  induction n generalizing k m with
  | zero => simp [hideLoop] at h
  | succ n ih =>
    unfold hideLoop at h
    split at h
    · cases h
    split at h
    next e' he =>
      cases h
      exact windowCheck_some (imprintWindow_raise_iff.1 he)
    · cases h
    · exact ih h

/-- A window of at most 32 bytes stops `ExtractWindow` only by the window check. -/
theorem extractWindow_raise {o : Nat} {m : Memory} {e : ErrKind} (hn : n ≤ 32)
    (h : extractWindow p o n L m = .error (.raise e)) : e = .overflow ∨ e = .outOfBounds := by
  obtain hcheck | ⟨-, hwide, -⟩ := extractWindow_raise_iff.1 h
  · exact windowCheck_some hcheck
  · omega

/-- RECOVER's loop stops with the error of a window check. -/
theorem recoverLoop_raise {c pl pl' : Memory} {k : Nat} {e : ErrKind}
    (h : recoverLoop p H L c n k pl = .ok (pl', some e)) : e = .overflow ∨ e = .outOfBounds := by
  obtain ⟨q, -, -, -, -, hstop⟩ := recoverLoop_get h
  exact extractWindow_raise (n := byteWin) (by decide) (hstop e rfl).2

theorem execImprint_errcode (h : execImprint s = .next t) :
    t.errcode = none ∨ t.errcode = some .overflow ∨ t.errcode = some .outOfBounds := by
  obtain ⟨-, ⟨e, he, rfl⟩ | ⟨c, -, rfl⟩⟩ := execImprint_next h
  · exact .inr ((windowCheck_some he).imp (congrArg some) (congrArg some))
  · exact .inl rfl

theorem execExtract_errcode (h : execExtract s = .next t) :
    t.errcode = none ∨ t.errcode = some .overflow ∨ t.errcode = some .outOfBounds ∨
      t.errcode = some .sizeLimitExceeded := by
  obtain ⟨-, ⟨e, he, rfl⟩ | ⟨v, -, rfl⟩⟩ := execExtract_next h
  · obtain hcheck | ⟨-, -, rfl⟩ := extractWindow_raise_iff.1 he
    · obtain rfl | rfl := windowCheck_some hcheck
      · exact .inr (.inl rfl)
      · exact .inr (.inr (.inl rfl))
    · exact .inr (.inr (.inr rfl))
  · exact .inl rfl

theorem execHide_errcode (h : execHide s = .next t) :
    t.errcode = none ∨ t.errcode = some .overflow ∨ t.errcode = some .outOfBounds ∨
      t.errcode = some .capacityExceeded := by
  have hof : ∀ e, e = ErrKind.overflow ∨ e = .outOfBounds → some e = none ∨ some e = some .overflow ∨
      some e = some .outOfBounds ∨ some e = some .capacityExceeded := by
    rintro e (rfl | rfl)
    · exact .inr (.inl rfl)
    · exact .inr (.inr (.inl rfl))
  obtain ⟨-, ⟨-, rfl⟩ | ⟨-, ⟨e, he, rfl⟩ | ⟨c, c', e, -, hloop, rfl⟩⟩⟩ := execHide_next h
  · exact .inr (.inr (.inr rfl))
  · exact hof e (windowCheck_some he)
  · cases e with
    | none => exact .inl rfl
    | some e => exact hof e (hideLoop_raise hloop)

theorem execRecover_errcode (h : execRecover s = .next t) :
    t.errcode = none ∨ t.errcode = some .overflow ∨ t.errcode = some .outOfBounds := by
  obtain ⟨-, ⟨e, he, rfl⟩ | ⟨m, pl, e, -, hloop, rfl⟩⟩ := execRecover_next h
  · exact .inr ((extractWindow_raise le_rfl he).imp (congrArg some) (congrArg some))
  · cases e with
    | none => exact .inl rfl
    | some e => exact .inr ((recoverLoop_raise hloop).imp (congrArg some) (congrArg some))

/-- Settles O23: each error is a window check's, the size ceiling's of EXTRACT or the capacity check's of HIDE. -/
theorem errorsOfEachCommand : Obligations.ErrorsOfEachCommand :=
  ⟨fun _ _ => execImprint_errcode, fun _ _ => execExtract_errcode, fun _ _ => execHide_errcode,
   fun _ _ => execRecover_errcode⟩

theorem errField_of_none (h : s.errcode = none) : errField s = 0#4 := by simp only [errField, h]

theorem errField_of_some {e : ErrKind} (h : s.errcode = some e) : errField s = errCode e := by
  simp only [errField, h]

/-- Settles O22: ERRCODE is the number of the error kind. -/
theorem errorCodes : Obligations.ErrorCodes := fun _ =>
  ⟨fun h => congrArg BitVec.toNat (errField_of_none h), fun h => congrArg BitVec.toNat (errField_of_some h),
   fun h => congrArg BitVec.toNat (errField_of_some h), fun h => congrArg BitVec.toNat (errField_of_some h),
   fun h => congrArg BitVec.toNat (errField_of_some h), fun h => congrArg BitVec.toNat (errField_of_some h)⟩

/-! ### The end of a command (R111, R112) -/

/-- R111, D17: a command that ends with an error has written neither VALUE nor PLEN. -/
theorem exec_error_keeps_results {i : Instr} (h : exec i s = .next t) (he : t.errcode ≠ none) :
    t.value = s.value ∧ t.plen = s.plen := by
  cases i with
  | imprint =>
    obtain ⟨-, ⟨e, -, rfl⟩ | ⟨c, -, rfl⟩⟩ := execImprint_next h
    · exact ⟨rfl, rfl⟩
    · exact absurd rfl he
  | extract =>
    obtain ⟨-, ⟨e, -, rfl⟩ | ⟨v, -, rfl⟩⟩ := execExtract_next h
    · exact ⟨rfl, rfl⟩
    · exact absurd rfl he
  | hide =>
    obtain ⟨-, ⟨-, rfl⟩ | ⟨-, ⟨e, -, rfl⟩ | ⟨c, c', e, -, -, rfl⟩⟩⟩ := execHide_next h <;> exact ⟨rfl, rfl⟩
  | recover =>
    obtain ⟨-, ⟨e, -, rfl⟩ | ⟨m, pl, e, -, -, rfl⟩⟩ := execRecover_next h
    · exact ⟨rfl, rfl⟩
    · exact ⟨rfl, if_neg he⟩

/-- Settles O24: every command ends in `finish`, over a state in which it changed at most VALUE, PLEN and memory. -/
theorem everyCommandCompletes : Obligations.EveryCommandCompletes := by
  intro i s t h
  have hresults := exec_error_keeps_results h
  obtain ⟨v, q, c, pl, e, rfl⟩ := exec_next h
  exact ⟨rfl, rfl, rfl, rfl, rfl, rfl, rfl, hresults⟩

/-- Settles O25: the check of CLEN is every command's first. -/
theorem clenBeyondMemoryIsRefused : Obligations.ClenBeyondMemoryIsRefused := fun i _ h => exec_clenBeyondMemory i h

/-- Settles O26: IMPRINT's second check, with CLEN in range. -/
theorem wideImprintIsRefused : Obligations.WideImprintIsRefused := by
  intro s hL hsize hwide
  rw [exec_imprint, execImprint, if_neg (Nat.not_lt.2 hL), if_pos ⟨hsize, hwide⟩]

/-! ### IMPRINT and EXTRACT on an unwritten byte (R58) -/

theorem execImprint_fault {f : Fault} (hL : clenOk s) (hsize : s.size.toNat ≤ 32 ∨ s.cfg.imprintWide = .zero)
    (h : imprintWindow s.cfg s.value s.offset.toNat s.size.toNat s.clen.toNat s.carrier = .error (.fault f)) :
    execImprint s = .fault f := by
  simp only [execImprint, if_neg (Nat.not_lt.2 hL), if_neg (not_imprintWide hsize), h]

theorem execExtract_fault {f : Fault} (hL : clenOk s)
    (h : extractWindow s.cfg s.offset.toNat s.size.toNat s.clen.toNat s.carrier = .error (.fault f)) :
    execExtract s = .fault f := by
  simp only [execExtract, if_neg (Nat.not_lt.2 hL), h]

/-- Settles O27: both window operations fault at the first unwritten byte. -/
theorem unwrittenWindowByteFaults : Obligations.UnwrittenWindowByteFaults := by
  intro s j hp hL hin hj hw hn
  exact ⟨fun hsize => execImprint_fault hL hsize (imprintWindow_fault s.value hp hL hin hj hw hn),
    fun hsize => execExtract_fault hL (extractWindow_fault hp hL hin hsize hj hw hn)⟩

/-! ### IMPRINT and EXTRACT on a written window -/

/-- Settles O30: the pair as a base-4 digit; a 64-bit value has 32 of them. -/
theorem pairSelection : Obligations.PairSelection := ⟨pair_toNat, fun v _ h => pair_wide v h⟩

/-- Settles O31: `ImprintWindow` succeeds, and every byte it changes was written. -/
theorem imprintWritesWindow : Obligations.ImprintWritesWindow := by
  intro s hp hL hsize hin hw
  obtain ⟨c, hc⟩ := imprintWindow_ok s.value hp hL hin hw
  refine ⟨c, execImprint_ok hL hsize hc, fun a => ?_⟩
  split
  next ha =>
    obtain ⟨j, rfl⟩ := Nat.exists_eq_add_of_le ha.1
    rw [imprintWindow_get_inside hc ha, memGet_of_written hw (by omega)]
    rfl
  next ha => exact imprintWindow_get_outside hc ha

/-- R72: a value modulo `4^n` is the sum of its pairs below `n` at their places. -/
theorem mod_eq_sum_pairs (v : Word) (n : Nat) :
    v.toNat % 4 ^ n = ((List.range n).map (fun i => (pair v i).toNat * 4 ^ i)).sum := by
  induction n with
  | zero => simp [Nat.mod_one]
  | succ n ih =>
    rw [List.range_succ, List.map_append, List.sum_append, ← ih, Nat.mod_pow_succ]
    simp [pair_toNat, Nat.mul_comm]

theorem carried_toNat (b : Byte) : (carried b).toNat = b.toNat % 4 := by
  simp [carried, BitVec.extractLsb'_toNat]

/-- R74: the value that `ExtractWindow` returns as a sum over its window. -/
theorem extractWindow_toNat {o : Nat} {m : Memory} {v : Word} (h : extractWindow p o n L m = .ok v) :
    v.toNat = ((List.range n).map (fun i => (byteAt m (o + i)).toNat % 4 * 4 ^ i)).sum := by
  rw [← Nat.mod_eq_of_lt (extractWindow_lt h), mod_eq_sum_pairs]
  refine congrArg List.sum (List.map_congr_left fun i hi => ?_)
  rw [extractWindow_pairs h, if_pos (List.mem_range.1 hi), carried_toNat]

/-- Settles O35: `ExtractWindow` succeeds, and its value is known by its pairs. -/
theorem extractReadsWindow : Obligations.ExtractReadsWindow := by
  intro s hp hL hsize hin hw
  obtain ⟨v, hv⟩ := extractWindow_ok hp hL hin hsize hw
  exact ⟨v, execExtract_ok hL hv, extractWindow_pairs hv, extractWindow_toNat hv⟩

/-- Settles O37: an EXTRACT that raises writes STATUS only, one that completes VALUE too. -/
theorem extractFrame : Obligations.ExtractFrame := by
  intro s t h
  obtain ⟨-, ⟨e, -, rfl⟩ | ⟨v, -, rfl⟩⟩ := execExtract_next h
  · exact ⟨s.value, some e, rfl, fun _ => rfl⟩
  · exact ⟨v, none, rfl, fun he => absurd rfl he⟩

end Sys2Proof.Machine
end

section
/-! SUPPORT. HIDE and RECOVER (41_framer.md): where they fault, what stops them, and what they leave in the two
memories. -/

namespace Sys2Proof.Machine

variable {p : Params} {H L n : Nat} {m c pl : Memory} {v : Word} {s t : State}

/-! ### HIDE on an unwritten byte (R58, R89) -/

theorem execHide_fault_length {f : Fault} (hL : clenOk s)
    (hcap : capacityOk s.plen.toNat s.hdr.toNat s.clen.toNat = true)
    (h : imprintWindow s.cfg s.plen s.hdr.toNat lenWin s.clen.toNat s.carrier = .error (.fault f)) :
    execHide s = .fault f := by
  simp only [execHide, if_neg (Nat.not_lt.2 hL), hcap, Bool.true_eq_false, if_false, h]

theorem execHide_fault_loop {f : Fault} (hL : clenOk s)
    (hcap : capacityOk s.plen.toNat s.hdr.toNat s.clen.toNat = true)
    (hlen : imprintWindow s.cfg s.plen s.hdr.toNat lenWin s.clen.toNat s.carrier = .ok c)
    (h : hideLoop s.cfg s.hdr.toNat s.clen.toNat s.payload s.plen.toNat 0 c = .error f) :
    execHide s = .fault f := by
  simp only [execHide, if_neg (Nat.not_lt.2 hL), hcap, Bool.true_eq_false, if_false, hlen, h]

/-- R13: the payload memory has a byte for each window that fits the carrier buffer. -/
theorem payload_has_byte {k : Nat} (hp : p.Legal) (hL : L ≤ p.carrierSize) (hin : byteWindow H (k + 1) ≤ L) :
    k < p.payloadSize := by
  have := hp.2
  simp only [byteWindow, byteWin, lenWin] at hin
  omega

/-- HIDE's loop faults at a payload byte that nothing has written. -/
theorem hideLoop_fault_payload {k : Nat} (hp : p.Legal) (hL : L ≤ p.carrierSize)
    (hin : byteWindow H (k + 1) ≤ L) (hn : 0 < n) (hk : memGet pl k = none) :
    hideLoop p H L pl n k m = .error (.uninitRead .payload k) := by
  obtain ⟨n, rfl⟩ := Nat.exists_eq_succ_of_ne_zero hn.ne'
  have hread : readByte p .payload pl k = .error (.uninitRead .payload k) :=
    readByte_unwritten (payload_has_byte hp hL hin) hk
  simp only [hideLoop, hread]

/-- HIDE's loop faults at the first byte of a window that nothing has written, its payload byte being written. -/
theorem hideLoop_fault_window {k j : Nat} (hp : p.Legal) (hL : L ≤ p.carrierSize)
    (hin : byteWindow H (k + 1) ≤ L) (hn : 0 < n) (hk : (memGet pl k).isSome = true) (hj : j < 4)
    (hw : written m (byteWindow H k) j) (hunwritten : memGet m (byteWindow H k + j) = none) :
    hideLoop p H L pl n k m = .error (.uninitRead .carrier (byteWindow H k + j)) := by
  obtain ⟨n, rfl⟩ := Nat.exists_eq_succ_of_ne_zero hn.ne'
  obtain ⟨b, hb⟩ := Option.isSome_iff_exists.1 hk
  have hnext : byteWindow H k + byteWin ≤ L := by
    simp only [byteWindow, byteWin, lenWin] at hin ⊢
    omega
  have hread : readByte p .payload pl k = .ok b := readByte_ok_iff.2 ⟨payload_has_byte hp hL hin, hb⟩
  simp only [hideLoop, hread, imprintWindow_fault (b.setWidth 64) hp hL hnext hj hw hunwritten]

/-- HIDE, its length window and its first `k` windows and payload bytes written, comes to payload byte `k` with every
byte from window `k` up as it was. -/
theorem hide_reaches {k : Nat} (hp : s.cfg.Legal) (hL : clenOk s)
    (hin : s.hdr.toNat + 32 + 4 * k ≤ s.clen.toNat) (hk : k ≤ s.plen.toNat)
    (hw : written s.carrier s.hdr.toNat (32 + 4 * k)) (hpl : written s.payload 0 k) :
    ∃ c c', imprintWindow s.cfg s.plen s.hdr.toNat lenWin s.clen.toNat s.carrier = .ok c ∧
      hideLoop s.cfg s.hdr.toNat s.clen.toNat s.payload s.plen.toNat 0 c =
        hideLoop s.cfg s.hdr.toNat s.clen.toNat s.payload (s.plen.toNat - k) k c' ∧
      ∀ a, byteWindow s.hdr.toNat k ≤ a → memGet c' a = memGet s.carrier a := by
  obtain ⟨c, hc⟩ := imprintWindow_ok s.plen (s := 32) hp hL (by omega) (fun j hj => hw j (by omega))
  have hwc : written c (byteWindow s.hdr.toNat 0) (4 * k) :=
    imprintWindow_written hc fun j hj => by
      have := hw (32 + j) (by omega)
      rwa [← Nat.add_assoc] at this
  obtain ⟨c', hrun, hout⟩ := hideLoop_run k hp hL hk (.inr (by rwa [Nat.zero_add])) hpl hwc
  rw [Nat.zero_add] at hrun hout
  refine ⟨c, c', hc, hrun, fun a ha => ?_⟩
  have hlength := imprintWindow_get_outside hc (a := a)
  simp only [byteWindow, lenWin] at ha hlength
  exact (hout a (by unfold byteWindow lenWin; omega)).trans (hlength (by omega))

/-- Settles O28: the length window, then the loop up to payload byte `k`, which faults there or in its window. -/
theorem hideUnwrittenPayloadFaults : Obligations.HideUnwrittenPayloadFaults := by
  intro s hp hL hin
  have hcap : capacityOk s.plen.toNat s.hdr.toNat s.clen.toNat = true := capacityOk_iff.2 (by omega)
  have hwindow : ∀ k < s.plen.toNat, byteWindow s.hdr.toNat (k + 1) ≤ s.clen.toNat := fun k hk => by
    simp only [byteWindow, byteWin, lenWin]
    omega
  refine ⟨fun j hj hw hn => ?_, fun k hk hw hpl hn => ?_, fun k hk j hj hw hpl hn => ?_⟩
  · exact execHide_fault_length hL hcap
      (imprintWindow_fault s.plen hp hL (by unfold lenWin; omega) hj hw hn)
  · obtain ⟨c, c', hlen, hrun, -⟩ := hide_reaches hp hL (by omega) hk.le hw hpl
    exact execHide_fault_loop hL hcap hlen
      (hrun.trans (hideLoop_fault_payload hp hL (hwindow k hk) (by omega) hn))
  · obtain ⟨c, c', hlen, hrun, hkept⟩ := hide_reaches hp hL (by omega) hk.le (fun i hi => hw i (by omega))
      (fun i hi => hpl i (by omega))
    have hwritten : written c' (byteWindow s.hdr.toNat k) j := fun i hi => by
      have := hw (32 + 4 * k + i) (by omega)
      rw [hkept _ (by omega)]
      simpa only [byteWindow, byteWin, lenWin, Nat.add_assoc] using this
    have hbyte : (memGet s.payload k).isSome = true := by simpa using hpl k (by omega)
    exact execHide_fault_loop hL hcap hlen (hrun.trans (hideLoop_fault_window hp hL (hwindow k hk) (by omega)
      hbyte hj hwritten ((hkept _ (by omega)).trans hn)))

/-! ### HIDE is all or nothing (R91) -/

/-- `ImprintWindow`, where it succeeds, has read every byte of its window. -/
theorem imprintWindow_reads {o : Nat} {m' : Memory} (h : imprintWindow p v o n L m = .ok m') : written m o n :=
  fun j hj => (imprintBytes_reads (imprintWindow_ok_iff.1 h).2 (Nat.zero_le j) (by omega)).2

/-- HIDE's loop, where it ends with no error, has read every byte of its windows. -/
theorem hideLoop_reads {m' : Memory} {k : Nat} (h : hideLoop p H L pl n k m = .ok (m', none)) :
    written m (byteWindow H k) (4 * n) := by
  induction n generalizing k m with
  | zero => exact fun j hj => absurd hj (by omega)
  | succ n ih =>
    unfold hideLoop at h
    split at h
    · cases h
    split at h
    · cases h
    · cases h
    next m1 hm1 =>
      intro j hj
      by_cases hfirst : j < 4
      · exact imprintWindow_reads hm1 j hfirst
      · have hrest := ih h (j - 4) (by omega)
        have hout := imprintWindow_get_outside hm1 (a := byteWindow H k + j)
        simp only [byteWindow, byteWin, lenWin] at hrest hout ⊢
        rwa [show H + 32 + 4 * (k + 1) + (j - 4) = H + 32 + 4 * k + j by omega, hout (by omega)] at hrest

/-- R87, R88: a payload that is not empty and passes the capacity check fits, length window included. -/
theorem capacityOk_inside (h : capacityOk n H L = true) (hn : 1 ≤ n) : H + 32 + 4 * n ≤ L := by
  have := capacityOk_iff.1 h
  omega

/-- R91: past the capacity check and the length window, HIDE's loop ends with no error. -/
theorem hideLoop_no_error_of_capacityOk {c' : Memory} {e : Option ErrKind} (hp : p.Legal) (hL : L ≤ p.carrierSize)
    (hcap : capacityOk n H L = true) (h : hideLoop p H L pl n 0 c = .ok (c', e)) : e = none := by
  refine hideLoop_no_error hp hL ?_ h
  obtain rfl | hn := Nat.eq_zero_or_pos n
  · exact .inl rfl
  · rw [Nat.zero_add]
    exact .inr (capacityOk_inside hcap hn)

theorem map_carried_setCarried {o : Option Byte} (x : Pair) (h : o.isSome = true) :
    (o.map (fun b => setCarried b x)).map carried = some x := by
  obtain ⟨b, rfl⟩ := Option.isSome_iff_exists.1 h
  simp [carried_setCarried]

/-- A HIDE that raises has written no byte. -/
theorem execHide_error_keeps_carrier (hp : s.cfg.Legal) (h : execHide s = .next t) (he : t.errcode ≠ none) :
    t.carrier = s.carrier := by
  obtain ⟨hL, ⟨-, rfl⟩ | ⟨hcap, ⟨e, -, rfl⟩ | ⟨c, c', e, -, hloop, rfl⟩⟩⟩ := execHide_next h
  · rfl
  · rfl
  · exact absurd (hideLoop_no_error_of_capacityOk hp hL hcap hloop) he

/-- A HIDE of a payload that is not empty and fits raises nothing. -/
theorem execHide_no_error (hp : s.cfg.Legal) (h : execHide s = .next t) (hn : 1 ≤ s.plen.toNat)
    (hcap : capacityOk s.plen.toNat s.hdr.toNat s.clen.toNat = true) : t.errcode = none := by
  obtain ⟨hL, ⟨hfull, -⟩ | ⟨-, ⟨e, hcheck, -⟩ | ⟨c, c', e, -, hloop, rfl⟩⟩⟩ := execHide_next h
  · simp [hcap] at hfull
  · have hin := capacityOk_inside hcap hn
    rw [windowCheck_inside hp hL (by unfold lenWin; omega)] at hcheck
    cases hcheck
  · exact hideLoop_no_error_of_capacityOk hp hL hcap hloop

/-- A HIDE that completes has imprinted the length window and run its loop to the end. -/
theorem execHide_complete (h : execHide s = .next t) (he : t.errcode = none) :
    ∃ c, imprintWindow s.cfg s.plen s.hdr.toNat lenWin s.clen.toNat s.carrier = .ok c ∧
      hideLoop s.cfg s.hdr.toNat s.clen.toNat s.payload s.plen.toNat 0 c = .ok (t.carrier, none) := by
  obtain ⟨-, ⟨-, rfl⟩ | ⟨-, ⟨e, -, rfl⟩ | ⟨c, c', e, hlen, hloop, rfl⟩⟩⟩ := execHide_next h
  · cases he
  · cases he
  · obtain rfl : e = none := he
    exact ⟨c, hlen, hloop⟩

/-- Settles O44: past the capacity check only the length window's own check can raise, with no byte written; a HIDE that
completes has read every byte of its windows, so each holds its pair. -/
theorem hideIsAllOrNothing : Obligations.HideIsAllOrNothing := by
  intro s t hp h
  refine ⟨execHide_error_keeps_carrier hp h, execHide_no_error hp h, fun he => ?_⟩
  obtain ⟨c, hlen, hloop⟩ := execHide_complete h he
  refine ⟨fun i hi => ?_, fun k hk i hi => ?_⟩
  · rw [hideLoop_imprintWindow_get_length hlen hloop hi]
    exact map_carried_setCarried _ (imprintWindow_reads hlen i hi)
  · have hread := hideLoop_reads hloop (4 * k + i) (by omega)
    have hout := imprintWindow_get_outside hlen (a := s.hdr.toNat + 32 + 4 * k + i)
    simp only [byteWindow, byteWin, lenWin, Nat.mul_zero, Nat.add_zero, ← Nat.add_assoc] at hread hout
    rw [hout (by omega)] at hread
    rw [hideLoop_imprintWindow_get_byte hlen hloop hk hi]
    exact map_carried_setCarried _ hread

/-- Settles O43: an empty payload needs no room beyond HDR, so only the length window's check can raise. -/
theorem hideEmptyPayloadErrors : Obligations.HideEmptyPayloadErrors := by
  intro s hL hn
  have hcap : capacityOk s.plen.toNat s.hdr.toNat s.clen.toNat = true := capacityOk_iff.2 (by omega)
  exact ⟨fun hover => execHide_raise hL hcap (windowCheck_overflow_iff.2 hover),
    fun hmax hbeyond => execHide_raise hL hcap (windowCheck_outOfBounds_iff.2 ⟨hmax, hbeyond⟩)⟩

/-! ### RECOVER on an unwritten byte (R58, R92) -/

theorem execRecover_fault_length {f : Fault} (hL : clenOk s)
    (h : extractWindow s.cfg s.hdr.toNat lenWin s.clen.toNat s.carrier = .error (.fault f)) :
    execRecover s = .fault f := by
  simp only [execRecover, if_neg (Nat.not_lt.2 hL), h]

theorem execRecover_fault_loop {f : Fault} (hL : clenOk s)
    (hlen : extractWindow s.cfg s.hdr.toNat lenWin s.clen.toNat s.carrier = .ok v)
    (h : recoverLoop s.cfg s.hdr.toNat s.clen.toNat s.carrier v.toNat 0 s.payload = .error f) :
    execRecover s = .fault f := by
  simp only [execRecover, if_neg (Nat.not_lt.2 hL), hlen, h]

/-- RECOVER's loop faults at the first byte of a window that nothing has written. -/
theorem recoverLoop_fault {k j : Nat} (hp : p.Legal) (hL : L ≤ p.carrierSize) (hin : byteWindow H k + 4 ≤ L)
    (hn : 0 < n) (hj : j < 4) (hw : written c (byteWindow H k) j) (hunwritten : memGet c (byteWindow H k + j) = none) :
    recoverLoop p H L c n k pl = .error (.uninitRead .carrier (byteWindow H k + j)) := by
  obtain ⟨n, rfl⟩ := Nat.exists_eq_succ_of_ne_zero hn.ne'
  have hwindow : extractWindow p (byteWindow H k) byteWin L c =
      .error (.fault (.uninitRead .carrier (byteWindow H k + j))) :=
    extractWindow_fault hp hL hin (by decide) hj hw hunwritten
  simp only [recoverLoop, hwindow]

/-- RECOVER's loop stops with OutOfBounds at a window that begins inside the carrier buffer and ends beyond it: with
legal parameters its end is no Overflow (R12). -/
theorem recoverLoop_outOfBounds {k : Nat} (hp : p.Legal) (hL : L ≤ p.carrierSize) (hbegin : byteWindow H k ≤ L)
    (hend : L < byteWindow H k + 4) (hn : 0 < n) : recoverLoop p H L c n k pl = .ok (pl, some .outOfBounds) := by
  obtain ⟨n, rfl⟩ := Nat.exists_eq_succ_of_ne_zero hn.ne'
  have hmax : byteWindow H k + byteWin ≤ idxMax p := by
    have := hp.1
    unfold idxMax byteWin
    omega
  have hwindow : extractWindow p (byteWindow H k) byteWin L c = .error (.raise .outOfBounds) :=
    extractWindow_raise_iff.2 (.inl (windowCheck_outOfBounds_iff.2 ⟨hmax, hend⟩))
  simp only [recoverLoop, hwindow]

/-- RECOVER, its length window holding `v` and its first `k` windows written, comes to window `k` with the payload
bytes below `k` read. -/
theorem recover_reaches {k : Nat} (hp : s.cfg.Legal) (hL : clenOk s)
    (hlen : ∀ i < 32, pair v i = carried (byteAt s.carrier (s.hdr.toNat + i)))
    (hin : s.hdr.toNat + 32 + 4 * k ≤ s.clen.toNat) (hk : k ≤ v.toNat)
    (hw : written s.carrier s.hdr.toNat (32 + 4 * k)) :
    extractWindow s.cfg s.hdr.toNat lenWin s.clen.toNat s.carrier = .ok v ∧
    ∃ pl, recoverLoop s.cfg s.hdr.toNat s.clen.toNat s.carrier v.toNat 0 s.payload =
        recoverLoop s.cfg s.hdr.toNat s.clen.toNat s.carrier (v.toNat - k) k pl ∧
      (∀ x, k ≤ x → memGet pl x = memGet s.payload x) ∧
      (∀ j < k, ∃ b : Word,
        extractWindow s.cfg (byteWindow s.hdr.toNat j) byteWin s.clen.toNat s.carrier = .ok b ∧
          memGet pl j = some (b.setWidth 8)) := by
  obtain ⟨w, hwin⟩ := extractWindow_ok (s := 32) hp hL (by omega) le_rfl (fun j hj => hw j (by omega))
  obtain rfl : w = v := word_ext_pairs fun i hi => by rw [extractWindow_pairs hwin, if_pos hi, hlen i hi]
  have hwb : written s.carrier (byteWindow s.hdr.toNat 0) (4 * k) := fun j hj => by
    have := hw (32 + j) (by omega)
    rwa [← Nat.add_assoc] at this
  obtain ⟨pl, hrun, hkept, hget⟩ := recoverLoop_run (pl := s.payload) k hp hL hk (.inr (by rwa [Nat.zero_add])) hwb
  simp only [Nat.zero_add] at hrun hkept hget
  exact ⟨hwin, pl, hrun, fun x hx => hkept x (.inr hx), hget⟩

/-- Settles O29: the length window, or the loop up to window `k`, which faults there. -/
theorem recoverUnwrittenLengthFaults : Obligations.RecoverUnwrittenLengthFaults := by
  intro s hp hL
  refine ⟨fun j hj hin hw hn => ?_, fun m k hlen hk hin j hj hw hn => ?_⟩
  · exact execRecover_fault_length hL (extractWindow_fault hp hL hin le_rfl hj hw hn)
  · obtain ⟨hwin, pl, hrun, -⟩ := recover_reaches hp hL hlen (by omega) hk.le (fun i hi => hw i (by omega))
    have hwritten : written s.carrier (byteWindow s.hdr.toNat k) j := fun i hi => by
      have := hw (32 + 4 * k + i) (by omega)
      simpa only [byteWindow, byteWin, lenWin, Nat.add_assoc] using this
    exact execRecover_fault_loop hL hwin (hrun.trans (recoverLoop_fault hp hL
      (by simp only [byteWindow, byteWin, lenWin]; omega) (by omega) hj hwritten hn))

/-! ### What RECOVER leaves (R92 to R94) -/

/-- R99: the payload byte of a per-byte window has the pairs that the window's bytes carry. -/
theorem pair_payload_of_window {k i : Nat} (h : extractWindow p (byteWindow H k) byteWin L c = .ok v) (hi : i < 4) :
    pair ((v.setWidth 8).setWidth 64) i = carried (byteAt c (H + 32 + 4 * k + i)) := by
  have hlt : v.toNat < 256 := extractWindow_lt h
  have hbyte : (v.setWidth 8).setWidth 64 = v := by
    apply BitVec.eq_of_toNat_eq
    simp only [BitVec.toNat_setWidth]
    omega
  rw [hbyte, extractWindow_pairs h, if_pos (show i < byteWin from hi)]
  rfl

/-- Settles O46: RECOVER completes, and each payload byte has the pairs of its window. -/
theorem recoverReadsPayload : Obligations.RecoverReadsPayload := by
  intro s m hp hL hlen hin hw
  obtain ⟨pl, hexec, hget, hkept⟩ := execRecover_completes hp hL hlen hin hw
  refine ⟨pl, hexec, fun k hk => ?_, hkept⟩
  obtain ⟨b, hb, hbk⟩ := hget k hk
  exact ⟨b.setWidth 8, hbk, fun i hi => pair_payload_of_window hb hi⟩

/-- Settles O47: the windows below `k0` fit and are read, and window `k0` ends beyond CLEN. -/
theorem recoverTooLongKeepsPlen : Obligations.RecoverTooLongKeepsPlen := by
  intro s m k0 hp hL hlen hin hk0 hk hw
  obtain ⟨hwin, pl, hrun, hkept, hget⟩ := recover_reaches hp hL hlen (k := k0) (by omega) hk.le hw
  have hstop := recoverLoop_outOfBounds (c := s.carrier) (pl := pl) (k := k0) (n := m.toNat - k0) (H := s.hdr.toNat)
    hp hL (by simp only [byteWindow, byteWin, lenWin]; omega) (by simp only [byteWindow, byteWin, lenWin]; omega)
    (by omega)
  refine ⟨pl, execRecover_of_loop hL hwin (hrun.trans hstop), fun k hk => ?_, hkept⟩
  obtain ⟨b, hb, hbk⟩ := hget k hk
  exact ⟨b.setWidth 8, hbk, fun i hi => pair_payload_of_window hb hi⟩

/-- Settles O48: the length window's check is the first after CLEN's. -/
theorem recoverLengthWindowErrors : Obligations.RecoverLengthWindowErrors :=
  fun _ hL => ⟨fun hover => execRecover_raise hL (extractWindow_raise_iff.2 (.inl (windowCheck_overflow_iff.2 hover))),
    fun hmax hbeyond => execRecover_raise hL
      (extractWindow_raise_iff.2 (.inl (windowCheck_outOfBounds_iff.2 ⟨hmax, hbeyond⟩)))⟩

/-- Settles O49: a payload byte that RECOVER's loop changes is one of those whose window it read. -/
theorem recoverFrame : Obligations.RecoverFrame := by
  intro s t h
  obtain ⟨-, ⟨e, -, rfl⟩ | ⟨m, pl, e, -, hloop, rfl⟩⟩ := execRecover_next h
  · exact ⟨s.payload, s.plen, some e, rfl, fun _ => rfl, fun k hk => absurd rfl hk⟩
  · obtain ⟨q, -, -, hkept, hread, -⟩ := recoverLoop_get hloop
    refine ⟨pl, _, e, rfl, fun he => if_neg he, fun k hk => ?_⟩
    have hlt : k < q := by
      by_contra hge
      exact hk (hkept k (.inr (by omega)))
    obtain ⟨hsize, hin, -⟩ := hread k hlt
    simp only [byteWindow, byteWin, lenWin] at hsize hin
    omega

end Sys2Proof.Machine
end

section
/-! SUPPORT. The host's accesses (10_state.md R18 to R32, 20_memory.md R50 and R58, 70_reset_and_hazards.md R129): their
shapes, the slots that read as 0 and take no write, the CMD write, and the bytes. -/

namespace Sys2Proof.Machine

variable {s : State}

/-! ### The register space -/

/-- R32, R44: slots 8 to 15 are reserved. -/
theorem slotOf_reserved {k : Nat} (hlow : 8 ≤ k) (hhigh : k ≤ 15) : slotOf (8 * k) 8 = some .reserved := by
  refine slotOf_eq_some_iff.2 ⟨rfl, by omega, by omega, ?_⟩
  rw [Nat.mul_div_cancel_left k (by decide)]
  interval_cases k <;> rfl

/-- R32: a write of a reserved slot is ignored in every state. -/
theorem hostRegWrite_reserved {a n : Nat} (v : Word) (h : slotOf a n = some .reserved) :
    hostRegWrite a n v s = .next (advance s) := by
  simp only [hostRegWrite, h]

/-- R18, R32: a slot that reads as 0 while BUSY is 1 reads as 0 in every state: CMD and the reserved slots. -/
theorem hostRegRead_zero {a n : Nat} {r : Slot} (h : slotOf a n = some r) (hr : r = .cmd ∨ r = .reserved) :
    hostRegRead a n s = .next (advance (record (.word 0) s)) := by
  obtain rfl | rfl := hr <;> simp only [hostRegRead, h, readSlotBusy, readSlot, ite_self]

theorem hostRegRead_busy {a n : Nat} {r : Slot} (h : slotOf a n = some r) (hb : busy s = true) :
    hostRegRead a n s = .next (advance (readSlotBusy s r)) := by
  simp only [hostRegRead, h, hb, if_true]

/-- R50: an access that is not one whole slot of the 16 is refused. -/
theorem hostReg_wrongShape {a n : Nat} (v : Word) (h : ¬ (n = 8 ∧ a % 8 = 0 ∧ a < 128)) :
    hostRegWrite a n v s = .refused .hostAccessShape ∧ hostRegRead a n s = .refused .hostAccessShape := by
  simp only [hostRegWrite, hostRegRead, slotOf_none h, and_self]

/-- Settles O52: STATUS and the reserved slots take no write, and no slot is named by another shape. -/
theorem reservedSlotsAndShapes : Obligations.ReservedSlotsAndShapes :=
  ⟨fun _ v hb => execHostOp_regWrite (r := .status) v hb (by decide),
   fun _ v _ hlow hhigh =>
    have hslot := slotOf_reserved hlow hhigh
    ⟨hostRegWrite_reserved v hslot, hostRegRead_zero hslot (.inr rfl)⟩,
   fun _ v _ _ hshape => hostReg_wrongShape v hshape⟩

/-- Settles O53: a CMD write that is accepted is `acceptCommand`, which changes no register and no memory. -/
theorem commandWriteStartsCommand : Obligations.CommandWriteStartsCommand := by
  refine ⟨fun s w hb => ?_, fun s => hostRegRead_zero (slotOf_slotOffset .cmd) (.inl rfl),
    fun s w hb => execHostOp_regWrite_busy (r := .cmd) w hb (by decide)⟩
  refine ⟨acceptCommand w (advance s), execHostOp_regWrite (r := .cmd) w hb (by decide), ?_⟩
  simp

/-! ### The bytes of the memories -/

/-- R129, and log entry 8: a read of an existing byte while BUSY is 1 is a draw. -/
theorem hostMemRead_busy {sp : Space} {a : Nat} (hb : busy s = true) (ha : a < spaceSize s.cfg sp) :
    hostMemRead sp a 1 s = .next (advance (recordFreeByte s)) := by
  have hshape : byteAccessOk s.cfg sp a 1 = true := byteAccessOk_iff.2 ⟨rfl, ha⟩
  simp only [hostMemRead, hshape, hb, Bool.true_eq_false, if_false, if_true]

/-- While BUSY is 0, a read of an existing byte is a read of its memory. -/
theorem hostMemRead_idle {sp : Space} {a : Nat} {b : Byte} (hb : busy s = false) (ha : a < spaceSize s.cfg sp)
    (hget : memGet (memoryOf s sp) a = some b) : hostMemRead sp a 1 s = .next (advance (record (.byte b) s)) := by
  have hshape : byteAccessOk s.cfg sp a 1 = true := byteAccessOk_iff.2 ⟨rfl, ha⟩
  have hread : readByte s.cfg sp (memoryOf s sp) a = .ok b := readByte_ok_iff.2 ⟨ha, hget⟩
  simp only [hostMemRead, hshape, hb, Bool.true_eq_false, Bool.false_eq_true, if_false, hread]

/-- R58: while BUSY is 0, a read of an existing byte that nothing has written is a fault. -/
theorem hostMemRead_unwritten {sp : Space} {a : Nat} (hb : busy s = false) (ha : a < spaceSize s.cfg sp)
    (hget : memGet (memoryOf s sp) a = none) : hostMemRead sp a 1 s = .fault (.uninitRead sp a) := by
  have hshape : byteAccessOk s.cfg sp a 1 = true := byteAccessOk_iff.2 ⟨rfl, ha⟩
  have hread : readByte s.cfg sp (memoryOf s sp) a = .error (.uninitRead sp a) := readByte_unwritten ha hget
  simp only [hostMemRead, hshape, hb, Bool.true_eq_false, Bool.false_eq_true, if_false, hread]

/-- R42, R43: a write of an existing byte while BUSY is 0. -/
theorem hostMemWrite_idle {sp : Space} {a : Nat} (b : Byte) (hb : busy s = false) (ha : a < spaceSize s.cfg sp) :
    hostMemWrite sp a 1 b s = .next (advance (setMemory s sp (memSet (memoryOf s sp) a b))) := by
  have hshape : byteAccessOk s.cfg sp a 1 = true := byteAccessOk_iff.2 ⟨rfl, ha⟩
  simp only [hostMemWrite, hshape, hb, Bool.true_eq_false, Bool.false_eq_true, if_false]

/-- R50: an access of another width than one byte, or beyond the memory, is refused. -/
theorem hostMem_wrongShape {sp : Space} {a n : Nat} (b : Byte) (h : n ≠ 1 ∨ spaceSize s.cfg sp ≤ a) :
    hostMemRead sp a n s = .refused .hostAccessShape ∧ hostMemWrite sp a n b s = .refused .hostAccessShape := by
  have hshape : byteAccessOk s.cfg sp a n = false := by
    rw [Bool.eq_false_iff, Ne, byteAccessOk_iff]
    omega
  simp only [hostMemRead, hostMemWrite, hshape, if_true, and_self]

theorem memoryOf_setMemory_other (s : State) {sp sp' : Space} (m : Memory) (h : sp' ≠ sp) :
    memoryOf (setMemory s sp m) sp' = memoryOf s sp' := by
  cases sp with
  | carrier => cases sp' with
    | carrier => exact absurd rfl h
    | payload => rfl
  | payload => cases sp' with
    | carrier => rfl
    | payload => exact absurd rfl h

theorem readSlot_setMemory (s : State) (sp : Space) (m : Memory) (r : Slot) :
    readSlot (setMemory s sp m) r = readSlot s r := by
  cases sp <;> cases r <;> rfl

theorem memoryOf_goTo (k : Nat) (s : State) (sp : Space) : memoryOf (goTo k s) sp = memoryOf s sp := by
  cases sp <;> rfl

/-- Settles O56: the byte written is found by the read after it, and a memory and a slot that were not written are as
before. -/
theorem hostByteWriteThenRead : Obligations.HostByteWriteThenRead := by
  intro s sp a b hb ha
  refine ⟨_, hostMemWrite_idle b hb ha, ?_, fun sp' a' hne => ?_, fun r => ?_⟩
  · have hidle : busy (advance (setMemory s sp (memSet (memoryOf s sp) a b))) = false :=
      (busy_congr (setMemory_pcw s sp _)).trans hb
    refine hostMemRead_idle hidle (by simpa using ha) ?_
    rw [advance_eq, memoryOf_goTo, memoryOf_setMemory_same, memGet_memSet_same]
  · rw [advance_eq, memoryOf_goTo]
    by_cases hsp : sp' = sp
    · subst hsp
      rw [memoryOf_setMemory_same, memGet_memSet_other _ _ fun h => hne ⟨rfl, h.symm⟩]
    · rw [memoryOf_setMemory_other s _ hsp]
  · rw [advance_eq, readSlot_goTo, readSlot_setMemory]

/-- Settles O57: an unwritten byte faults, and a wrong shape is refused before anything else. -/
theorem hostByteAccessStops : Obligations.HostByteAccessStops :=
  ⟨fun _ _ _ hb ha hn => hostMemRead_unwritten hb ha hn, fun _ _ _ _ b h => hostMem_wrongShape b h⟩

/-! ### The reads while BUSY is 1 (R129) -/

theorem readSlotBusy_register {r : Slot}
    (hr : r = .value ∨ r = .offset ∨ r = .size ∨ r = .clen ∨ r = .hdr ∨ r = .plen) :
    readSlotBusy s r = recordFreeWord s := by
  obtain rfl | rfl | rfl | rfl | rfl | rfl := hr <;> rfl

/-- Settles O55: STATUS is read as it is, CMD and the reserved slots as 0, all else is a draw. -/
theorem hostReadsWhileBusy : Obligations.HostReadsWhileBusy := by
  intro s hb
  obtain ⟨hbusy, hdone, -, herr, -⟩ := statusWord_fields s
  refine ⟨⟨hostRegRead_busy (slotOf_slotOffset .status) hb, hbusy.trans hb, hdone, herr⟩,
    hostRegRead_zero (slotOf_slotOffset .cmd) (.inl rfl),
    fun k hlow hhigh => hostRegRead_zero (slotOf_reserved hlow hhigh) (.inr rfl), fun r hr => ?_,
    fun sp a ha => hostMemRead_busy hb ha⟩
  have hread := hostRegRead_busy (slotOf_slotOffset r) hb
  rw [readSlotBusy_register hr] at hread
  exact hread

end Sys2Proof.Machine
end
